-- ==== Sys2Proof/Word.lean ====
section
/-! DEFINITION. The word types of RSA-NTC: 32-bit registers and bus data (00_scope.md R10), bytes of
a word (20_memory.md R63), and 12-bit offsets in the 4 KiB window (20_memory.md R60, R78). -/

namespace Sys2Proof

/-- A 32-bit register value or bus data word (R10). -/
abbrev Word := BitVec 32

/-- One byte of a word (R63). -/
abbrev Byte := BitVec 8

/-- A byte offset in the 4 KiB register window, 0x000 to 0xFFF: the port s_addr (R60, R78). -/
abbrev Offset := BitVec 12

end Sys2Proof
end

