-- ==== Sys2Proof/Syntax.lean ====
section
/-! DEFINITION. The five commands (00_scope.md R2; spec/opcode_table.json), one constructor per row.
No command has an operand field: every operand is a fixed register (30_encoding.md R92). -/

namespace Sys2Proof

/-- The commands of RSA-NTC (R2, R94). -/
inductive Instr where
  | nop
  | modexp
  | modinv
  | mrtest
  | mrwit
  deriving DecidableEq, Repr

/-- The mnemonic of a command (R100). -/
def Instr.mnemonic : Instr → String
  | .nop => "NOP"
  | .modexp => "MODEXP"
  | .modinv => "MODINV"
  | .mrtest => "MRTEST"
  | .mrwit => "MRWIT"

end Sys2Proof
end

