-- ==== Sys2Proof/Decode.lean ====
section
/-! DEFINITION. The command word: decoding (30_encoding.md R91), total on all 2^32 words and rejecting
by name, then the encoder (R94), the byte form (20_memory.md R63), and the disassembler (R100). -/

namespace Sys2Proof

/-- Why a word spells no command (R95). `truncated` is for byte lists of fewer than four bytes only. -/
inductive Illegal where
  | reservedBits
  | unassignedOpcode
  | truncated
  deriving DecidableEq, Repr

/-- Field OPC, bits 3:0 (R90). -/
def opcOf (w : Word) : BitVec 4 := w.extractLsb' 0 4

/-- Field RSV, bits 31:4 (R90). -/
def rsvOf (w : Word) : BitVec 28 := w.extractLsb' 4 28

/-- `decode` of R91. An error is the verdict ILLEGAL. -/
def decode (w : Word) : Except Illegal Instr :=
  if rsvOf w ≠ 0 then .error .reservedBits
  else match (opcOf w).toNat with
    | 0x0 => .ok .nop
    | 0x1 => .ok .modexp
    | 0x2 => .ok .modinv
    | 0x3 => .ok .mrtest
    | 0x4 => .ok .mrwit
    | _ => .error .unassignedOpcode

/-- The command word of a command (R94). -/
def encode : Instr → Word
  | .nop => 0x00000000
  | .modexp => 0x00000001
  | .modinv => 0x00000002
  | .mrtest => 0x00000003
  | .mrwit => 0x00000004

/-- A word from its four bytes, lowest offset first: little-endian (R63). -/
def wordOfBytes (b0 b1 b2 b3 : Byte) : Word := b3 ++ b2 ++ b1 ++ b0

/-- Decoding from bytes: one command is exactly one word (R96). Answers the command and the rest. -/
def decodeBytes : List Byte → Except Illegal (Instr × List Byte)
  | b0 :: b1 :: b2 :: b3 :: rest =>
    match decode (wordOfBytes b0 b1 b2 b3) with
    | .ok i => .ok (i, rest)
    | .error e => .error e
  | _ => .error .truncated

/-- The four bytes of a command, lowest offset first (R63). -/
def encodeBytes (i : Instr) : List Byte :=
  [(encode i).extractLsb' 0 8, (encode i).extractLsb' 8 8,
   (encode i).extractLsb' 16 8, (encode i).extractLsb' 24 8]

/-- What the decoder reads from an opcode-table word: `w` on `nbits` bits, the bits above 0. -/
def decodeTableWord (nbits w : Nat) : Option Instr :=
  if nbits ≤ 32 then (decode (BitVec.ofNat 32 (w % 2 ^ nbits))).toOption else none

/-- What a disassembler prints of CMD_LAST (R100): the mnemonic, or ILLEGAL and the word. -/
inductive Disassembly where
  | command (mnemonic : String)
  | illegal (w : Word)
  deriving DecidableEq, Repr

/-- The disassembler of R100. -/
def disassemble (w : Word) : Disassembly :=
  match decode w with
  | .ok i => .command i.mnemonic
  | .error _ => .illegal w

end Sys2Proof
end

