-- ==== Sys2Proof/Config.lean ====
section
/-! DEFINITION. What an implementation fixes (the four open parameters of 92_eei_decisions.md:
OPW, EXP_FORM, BASE, ENTROPY_LIVE) and the free values, which the spec leaves open. -/

namespace Sys2Proof

/-- EXP_FORM: the internal exponentiation algorithm (00_scope.md R7). -/
inductive ExpForm where
  | ladder
  | montgomery
  deriving DecidableEq, Repr

/-- The parameters of one RSA-NTC (00_scope.md R6 to R9). OPW is held as `opwSel`, so that only the
legal widths can be written: OPW = 32 * (opwSel + 2) is exactly the multiples of 32 in [64, 4096]. -/
structure Config where
  opwSel : Fin 127
  expForm : ExpForm
  base : Nat
  entropyLive : Bool
  deriving DecidableEq, Repr

namespace Config

/-- OPW / 32: how many words an operand has (R62). -/
def words (c : Config) : Nat := c.opwSel.val + 2

/-- OPW, the operand width in bits (R6). -/
def opw (c : Config) : Nat := 32 * c.words

/-- The reference configuration: OPW 1024, LADDER, entropy live (R6, R9).
DESIGN CHOICE (log 1, unsafe): BASE 0, which the spec does not fix. -/
def reference : Config :=
  { opwSel := 30, expForm := .ladder, base := 0, entropyLive := true }

/-- FREE VALUE (R68, U1): what a read of a word of R returns while BUSY; a fresh index for each read. -/
opaque unspecWord : Nat → BitVec 32

/-- FREE VALUE (R112): what R holds after the take of a computing command, before it is cut to OPW bits. -/
opaque unspecOperand : Nat → Nat

/-- FREE VALUE (R73, R204, U2): how many host moves come between a take and its completion.
DESIGN CHOICE (log 3): it does not depend on EXP_FORM, where R7 lets the latency of the forms differ. -/
opaque latency : Nat → Nat

/-- FREE VALUE (R15, R152, U3): the answers of a live entropy source. -/
opaque entropyAnswer : Nat → Nat

/-- FREE VALUE (20_memory.md R78, R79; log 11): the level of ent_req between two steps of a running
MRTEST that draws witnesses, by the counter of free values and the host moves left. -/
opaque entReqLevel : Nat → Nat → Bool

/-- FREE VALUE (R11 gives `mod` for a positive modulus only): host `mod` by any other number. -/
opaque hostOpenMod : Int → Int → Int

/-- FREE VALUE (R11 gives `div` as floor division, silent on 0): host `div` by 0. -/
opaque hostOpenDiv : Int → Int

end Config

end Sys2Proof
end

