-- ==== Sys2Proof/Machine/HostProgram.lean ====
section
/-! DEFINITION. Host programs (30_encoding.md R98, R99): the host's own operations, which drive the
block by bus transactions, and the pseudo-instructions as the lists they expand to. -/

namespace Sys2Proof.Machine

/-- A host temporary: a name holding an unbounded integer (R98). Names are numbered here. -/
abbrev Temp := Nat

/-- A label of a host program (R98). Names are numbered here. -/
abbrev Label := Nat

/-- The port s_size (20_memory.md R78): the size of an access. -/
inductive Size where
  | b8
  | b16
  | b32
  | b64
  deriving DecidableEq, Repr

/-- What a WR writes: an immediate or a temporary (R98). -/
inductive Src where
  | imm (w : Word)
  | temp (t : Temp)
  deriving DecidableEq, Repr

/-- Host expressions (R98 `HOST t <- expr`). DESIGN CHOICE (log 6): the spec gives no grammar; these
are the operations its programs use, with `div` and `mod` of 00_scope.md R11. -/
inductive HostExpr where
  | lit (v : Int)
  | temp (t : Temp)
  | add (x y : HostExpr)
  | sub (x y : HostExpr)
  | mul (x y : HostExpr)
  | div (x y : HostExpr)
  | mod (x y : HostExpr)
  deriving DecidableEq, Repr

/-- One line of a host program (R98), and the two raw accesses of any size at a physical address,
which R64 gives a response to. -/
inductive HostOp where
  | wr (off : Offset) (src : Src)
  | rd (off : Offset) (t : Temp)
  | label (l : Label)
  | bnz (t : Temp) (mask : Nat) (l : Label)
  | bz (t : Temp) (mask : Nat) (l : Label)
  | compute (t : Temp) (x : HostExpr)
  | busRead (addr : Nat) (size : Size)
  | busWrite (addr : Nat) (size : Size) (data : Word)
  deriving DecidableEq, Repr

/-- The host agent: its program, its position, and its temporaries as a list in rising order of name
with no entry 0 (log 6). -/
structure HostAgent where
  prog : List HostOp
  pc : Nat
  temps : List (Nat × Int)
  deriving DecidableEq, Repr

/-- Register offsets (20_memory.md R61). -/
def offId : Offset := 0x000
def offParam : Offset := 0x004
def offCmd : Offset := 0x008
def offStatus : Offset := 0x00C
def offCtrl : Offset := 0x010
def offIntstat : Offset := 0x014
def offIter : Offset := 0x018
def offRounds : Offset := 0x01C

/-- The three operand registers (10_state.md R21). -/
inductive OperandReg where
  | a
  | e
  | n
  deriving DecidableEq, Repr

/-- `base(X)` of R99: the first offset of an operand window (R61). -/
def OperandReg.offset : OperandReg → Nat
  | .a => 0x200
  | .e => 0x400
  | .n => 0x600

/-- The first offset of the R window (R61). -/
def resultOffset : Nat := 0x800

namespace Pseudo

/-- `LDOP X, v` for an immediate v (R99): all OPW/32 words, least significant first. DESIGN CHOICE (log 6): a v
of 2^OPW or more, which R99 rules out and `ldopWf` refuses, is loaded as v mod 2^OPW. -/
def ldop (c : Config) (x : OperandReg) (v : Nat) : List HostOp :=
  (List.range c.words).map fun i =>
    .wr (BitVec.ofNat 12 (x.offset + 4 * i)) (.imm (BitVec.ofNat 32 (v / 2 ^ (32 * i))))

/-- `LDOP X, t` for a temporary t (R99); `scratch` is a temporary the expansion may overwrite. DESIGN CHOICE
(log 6): a t outside [0, 2^OPW), for which R99 gives no meaning, is loaded as t mod 2^OPW. -/
def ldopTemp (c : Config) (x : OperandReg) (t scratch : Temp) : List HostOp :=
  (List.range c.words).flatMap fun i =>
    [.compute scratch (.mod (.div (.temp t) (.lit (2 ^ (32 * i)))) (.lit (2 ^ 32))),
     .wr (BitVec.ofNat 12 (x.offset + 4 * i)) (.temp scratch)]

/-- `LDOP0 X, v` (R99), for an immediate or a temporary v: word 0 only. DESIGN CHOICE (log 6): where the higher
words of X are not 0, which R99 rules out, they stay. -/
def ldop0 (x : OperandReg) (v : Src) : List HostOp :=
  [.wr (BitVec.ofNat 12 x.offset) v]

/-- `RDOP` from the window at offset `base` into t (R99); `scratch` is a temporary the expansion may overwrite. -/
def rdopAt (c : Config) (base : Nat) (t scratch : Temp) : List HostOp :=
  .compute t (.lit 0) ::
  (List.range c.words).flatMap fun i =>
    [.rd (BitVec.ofNat 12 (base + 4 * i)) scratch,
     .compute t (.add (.temp t) (.mul (.temp scratch) (.lit (2 ^ (32 * i)))))]

/-- `SETITER k` (R99). DESIGN CHOICE (log 6): k is an immediate of 16 bits, where R99 gives k a range and does
not say whether it may be a temporary. -/
def setIter (k : BitVec 16) : List HostOp := [.wr offIter (.imm (k.setWidth 32))]

/-- `IRQON` (R99). -/
def irqOn : List HostOp := [.wr offCtrl (.imm 0x1)]

/-- `IRQOFF` (R99). -/
def irqOff : List HostOp := [.wr offCtrl (.imm 0x0)]

/-- `ACK` (R99). -/
def ack : List HostOp := [.wr offIntstat (.imm 0x1)]

/-- `SRST` (R99). -/
def srst : List HostOp := [.wr offCtrl (.imm 0x4)]

/-- The command lines `NOP` to `MRWIT` (R99): a CMD write of the command word. -/
def command (w : Word) : List HostOp := [.wr offCmd (.imm w)]

/-- `WAIT -> s` (R99), with `w` its label. -/
def wait (s : Temp) (w : Label) : List HostOp :=
  [.label w, .rd offStatus s, .bnz s 0x1 w]

/-- `RUN op -> s` (R99). -/
def run (w : Word) (s : Temp) (l : Label) : List HostOp := command w ++ wait s l

end Pseudo

end Sys2Proof.Machine
end

