-- ==== Sys2Proof/Machine/State.lean ====
section
/-! DEFINITION. The state of RSA-NTC as plain data (10_state.md R20 to R37), with the host agent and
the block's inputs (00_scope.md R16), and the state after reset (10_state.md R39). -/

namespace Sys2Proof.Machine

/-- The four computing commands: the `op` of the engine phase BUSY(op) (R36). -/
inductive Op where
  | modexp
  | modinv
  | mrtest
  | mrwit
  deriving DecidableEq, Repr

/-- The command a busy engine runs. -/
def Op.instr : Op → Instr
  | .modexp => .modexp
  | .modinv => .modinv
  | .mrtest => .mrtest
  | .mrwit => .mrwit

/-- The engine phase (R36). -/
inductive Phase where
  | idle
  | busy (op : Op)
  deriving DecidableEq, Repr

/-- STATUS.ERR (10_state.md R31, 60_exceptions.md R171). Codes 4 to 15 are never produced and cannot
be written here (93_implementation_defined.md U13). -/
inductive ErrCode where
  | ok
  | illegalCmd
  | invalidArgument
  | noInverse
  deriving DecidableEq, Repr

/-- What the slave port answers to one transaction (00_scope.md R17). -/
inductive Response where
  | readOkay (data : Word)
  | readError
  | writeOkay
  | writeError
  deriving DecidableEq, Repr

/-- The whole state. -/
structure State where
  /-- The parameters: constant (R6 to R9). -/
  cfg : Config
  /-- Operand register A (R21). -/
  a : Nat
  /-- Operand register E (R21). -/
  e : Nat
  /-- Operand register N (R21). -/
  n : Nat
  /-- Result register R (R22). -/
  r : Nat
  /-- CMD_LAST (R25). -/
  cmdLast : Word
  /-- The engine phase; STATUS.BUSY is its view (R27, R36). -/
  phase : Phase
  /-- STATUS.DONE (R28). -/
  done : Bool
  /-- STATUS.WERR (R29). -/
  werr : Bool
  /-- STATUS.PRIME (R30). -/
  prime : Bool
  /-- STATUS.ERR (R31). -/
  err : ErrCode
  /-- CTRL.IRQ_EN (R32). -/
  irqEn : Bool
  /-- INTSTAT.DONE_IRQ (R33). -/
  doneIrq : Bool
  /-- ITER (R34). -/
  iter : BitVec 16
  /-- MR_ROUNDS (R35). -/
  mrRounds : BitVec 16
  /-- The model's own: host moves still to come before the running command completes (R73, R204; log 3). -/
  wait : Nat
  /-- Answers the entropy source has ready, first to be used first (R79, R152; log 4). -/
  entropy : List Nat
  /-- The model's own: how many free values were drawn (log 2). -/
  freeCount : Nat
  /-- Levels of the input rst_n at the coming steps, false = low; when empty it stays high (R78, R190; log 5). -/
  rstN : List Bool
  /-- The slave port's answer to the last transaction, none before the first (R17; log 9). -/
  resp : Option Response
  /-- The host agent (R16, R98). -/
  host : HostAgent
  deriving DecidableEq, Repr

/-- Reasons to stop with a fault. There are none: "No behaviour of RSA-NTC is treated as `fault`"
(93_implementation_defined.md), "The block never traps, and no host transaction faults the model"
(00_scope.md R17). Nobody raises one, which is exact. -/
inductive Fault where
  deriving DecidableEq, Repr

/-- Reasons to refuse. `notModelled` is raised only by an arm of `exec` for an instruction without a
meaning; every instruction here has one, so nobody raises it. Safe. -/
inductive Refusal where
  | notModelled (mnemonic : String)
  deriving DecidableEq, Repr

/-- The state after reset of a block with parameters `c` (10_state.md R39), with an empty host
program, no entropy answer ready, rst_n high and no transaction yet. DESIGN CHOICE for the model's
own fields `wait` and `freeCount` (logs 2, 3), the host (log 6) and the inputs (logs 4, 5). -/
def State.resetOf (c : Config) : State where
  cfg := c
  a := 0
  e := 0
  n := 0
  r := 0
  cmdLast := 0x00000000
  phase := .idle
  done := false
  werr := false
  prime := false
  err := .ok
  irqEn := false
  doneIrq := false
  iter := 0x0028
  mrRounds := 0
  wait := 0
  entropy := []
  freeCount := 0
  rstN := []
  resp := none
  host := { prog := [], pc := 0, temps := [] }

/-- The state after reset in the reference configuration (R6, R39). -/
def State.reset : State := State.resetOf Config.reference

end Sys2Proof.Machine
end

