-- ==== Sys2Proof/Machine/Operands.lean ====
section
/-! DEFINITION. The operand registers and their windows (20_memory.md R62, R63), the address map
(R61, R65), and the platform's placing of the window at BASE (00_scope.md R8). -/

namespace Sys2Proof.Machine

/-- `word_i` of an operand value: bits [32*i+31 : 32*i] (R62). -/
def wordAt (v i : Nat) : Word := BitVec.ofNat 32 (v / 2 ^ (32 * i))

/-- Byte `b` of an operand window: bits [8*b+7 : 8*b] (R63). -/
def byteAt (v b : Nat) : Byte := BitVec.ofNat 8 (v / 2 ^ (8 * b))

/-- Writing word `i` of an operand: the words below it, the new word, the words above it (R62). -/
def setWordAt (v i : Nat) (w : Word) : Nat :=
  v % 2 ^ (32 * i) + 2 ^ (32 * i) * (w.toNat + 2 ^ 32 * (v / 2 ^ (32 * (i + 1))))

/-- `sum over i in [0, k) of word_i * 2^(32*i)`: the value of R13 and R62 as the spec writes it. -/
def sumWords (v : Nat) : Nat → Nat
  | 0 => 0
  | k + 1 => sumWords v k + (wordAt v k).toNat * 2 ^ (32 * k)

/-- The stored number of an operand register (R21). -/
def State.raw (s : State) : OperandReg → Nat
  | .a => s.a
  | .e => s.e
  | .n => s.n

/-- `val(X)`: the OPW-bit unsigned integer in an operand register (R62). -/
def State.val (s : State) (x : OperandReg) : Nat := s.raw x % 2 ^ s.cfg.opw

/-- `val(R)` (R22, R62). -/
def State.valR (s : State) : Nat := s.r % 2 ^ s.cfg.opw

/-- Store a number in an operand register. -/
def State.setRaw (s : State) (v : Nat) : OperandReg → State
  | .a => { s with a := v }
  | .e => { s with e := v }
  | .n => { s with n := v }

/-- Write one word of an operand register (R62). -/
def State.setOperandWord (s : State) (x : OperandReg) (i : Nat) (w : Word) : State :=
  s.setRaw (setWordAt (s.val x) i w) x

/-- What an aligned offset names (R61, R65). -/
inductive Loc where
  | id
  | param
  | cmd
  | status
  | ctrl
  | intstat
  | iter
  | mrRounds
  | operand (x : OperandReg) (i : Nat)
  | result (i : Nat)
  | reserved
  deriving DecidableEq, Repr

/-- A word of a window, or a reserved place when its index is OPW/32 or more (R65). -/
def windowLoc (words index : Nat) (mk : Nat → Loc) : Loc :=
  if index < words then mk index else .reserved

/-- The control registers of R61 by word index, offset 4 * index below 0x200; the rest is reserved. -/
def controlLoc : Nat → Loc
  | 0 => .id
  | 1 => .param
  | 2 => .cmd
  | 3 => .status
  | 4 => .ctrl
  | 5 => .intstat
  | 6 => .iter
  | 7 => .mrRounds
  | _ => .reserved

/-- The address map of R61, for an aligned offset: the map is cut in blocks of 0x200 bytes (R10), the
control registers, then the windows A, E, N, R, then reserved places from 0xA00 up. -/
def locate (c : Config) (off : Offset) : Loc :=
  match off.toNat / 0x200 with
  | 0 => controlLoc (off.toNat % 0x200 / 4)
  | 1 => windowLoc c.words (off.toNat % 0x200 / 4) (.operand .a)
  | 2 => windowLoc c.words (off.toNat % 0x200 / 4) (.operand .e)
  | 3 => windowLoc c.words (off.toNat % 0x200 / 4) (.operand .n)
  | 4 => windowLoc c.words (off.toNat % 0x200 / 4) .result
  | _ => .reserved

/-- R64: `off[1:0] = 0`. -/
def aligned (off : Offset) : Bool := decide (off.toNat % 4 = 0)

/-- R8, R60: the platform places the window at BASE; the block sees only the offset. None: the
address is outside the 4 KiB window, and the access does not reach the block. -/
def offsetOf (c : Config) (addr : Nat) : Option Offset :=
  if c.base ≤ addr ∧ addr < c.base + 0x1000 then some (BitVec.ofNat 12 (addr - c.base)) else none

end Sys2Proof.Machine
end

