-- ==== Sys2Proof/Machine/Flags.lean ====
section
/-! DEFINITION. The control and status registers as the host reads them (10_state.md R23 to R35), the
status outputs irq (60_exceptions.md R174), and the bits of a written control word. -/

namespace Sys2Proof.Machine

/-- STATUS.BUSY: 1 exactly when the phase is BUSY(op) (R27). -/
def State.busy (s : State) : Bool :=
  match s.phase with
  | .idle => false
  | .busy _ => true

/-- The 4-bit code of STATUS.ERR (R31, R171). -/
def ErrCode.code : ErrCode → BitVec 4
  | .ok => 0
  | .illegalCmd => 1
  | .invalidArgument => 2
  | .noInverse => 3

/-- ID (R23): MAGIC 0x4E54 and IFVER 0x0001. -/
def idWord : Word := 0x4E540001

/-- The field PARAM.EXP_FORM (R7, R24). -/
def ExpForm.bit : ExpForm → BitVec 1
  | .ladder => 0
  | .montgomery => 1

/-- PARAM (R24): 31:17 reserved 0, 16 EXP_FORM, 15:0 OPW. -/
def paramWord (c : Config) : Word :=
  (0#15 ++ ExpForm.bit c.expForm) ++ BitVec.ofNat 16 c.opw

/-- STATUS (R26): 31:12 reserved, 11:8 ERR, 7:4 reserved, 3 PRIME, 2 WERR, 1 DONE, 0 BUSY. -/
def State.statusWord (s : State) : Word :=
  (((((0#20 ++ s.err.code) ++ 0#4) ++ BitVec.ofBool s.prime) ++ BitVec.ofBool s.werr) ++
    BitVec.ofBool s.done) ++ BitVec.ofBool s.busy

/-- CTRL as read (R32): 31:1 read 0 (SRST among them), 0 IRQ_EN. -/
def State.ctrlWord (s : State) : Word := 0#31 ++ BitVec.ofBool s.irqEn

/-- INTSTAT as read (R33): 31:1 read 0, 0 DONE_IRQ. -/
def State.intstatWord (s : State) : Word := 0#31 ++ BitVec.ofBool s.doneIrq

/-- ITER as read (R34): 31:16 read 0. -/
def State.iterWord (s : State) : Word := 0#16 ++ s.iter

/-- MR_ROUNDS as read (R35): 31:16 read 0. -/
def State.roundsWord (s : State) : Word := 0#16 ++ s.mrRounds

/-- Bit 0 of a CTRL write: IRQ_EN (R32). -/
def ctrlIrqEn (w : Word) : Bool := w.getLsbD 0

/-- Bit 2 of a CTRL write: SRST (R32). -/
def ctrlSrst (w : Word) : Bool := w.getLsbD 2

/-- Bit 0 of an INTSTAT write: the W1C of DONE_IRQ (R33). -/
def intstatClear (w : Word) : Bool := w.getLsbD 0

/-- Bits 15:0 of an ITER write (R34). -/
def iterField (w : Word) : BitVec 16 := w.extractLsb' 0 16

/-- The interrupt line (R174). -/
def State.irq (s : State) : Bool := s.irqEn && s.doneIrq

/-- The word stored at a place of the window: what a read returns, but for R while BUSY (R68). -/
def State.peek (s : State) : Loc → Word
  | .id => idWord
  | .param => paramWord s.cfg
  | .cmd => s.cmdLast
  | .status => s.statusWord
  | .ctrl => s.ctrlWord
  | .intstat => s.intstatWord
  | .iter => s.iterWord
  | .mrRounds => s.roundsWord
  | .operand x i => wordAt (s.val x) i
  | .result i => wordAt s.valR i
  | .reserved => 0

end Sys2Proof.Machine
end

