-- ==== Sys2Proof/Machine/Ops.lean ====
section
/-! DEFINITION. The named operations over State: take (40_command_control.md R110, R112), completion
(R113), the dropped write (20_memory.md R67), the block reset (70_reset_and_hazards.md R191), and the
entropy draws (43_miller_rabin.md R152). The block takes no exception (60_exceptions.md R170, R176):
`State.complete` with an error code is its one shared way to report an error. -/

namespace Sys2Proof.Machine

/-- What every take does first (R110). -/
def State.takeFirst (w : Word) (s : State) : State :=
  { s with cmdLast := w, werr := false }

/-- The take of a computing command, after R110 (R112). R gets a free value, and so does the number of
host moves before the completion (R73, R204). DESIGN CHOICE (logs 2, 3): neither depends on EXP_FORM,
where R7 lets the latency differ and R112 gives R no law. DESIGN CHOICE (log 12): DONE_IRQ is kept, as
R175 and R202 say, so irq may be 1 while BUSY, where R178 says that a host that sees irq = 1 reads
BUSY = 0. -/
def State.startCommand (op : Op) (s : State) : State :=
  { s with
    phase := .busy op
    done := false
    prime := false
    err := .ok
    r := Config.unspecOperand s.freeCount % 2 ^ s.cfg.opw
    wait := Config.latency s.freeCount
    freeCount := s.freeCount + 1 }

/-- The arguments of `complete` (R113); none is KEEP. -/
structure Completion where
  err : ErrCode
  r : Option Nat
  prime : Bool
  rounds : Option Nat
  deriving DecidableEq, Repr

/-- `complete(err, r, prime, rounds)` (R113): one atomic step. R is written whole, on OPW bits (R13). -/
def State.complete (c : Completion) (s : State) : State :=
  { s with
    phase := .idle
    done := true
    err := c.err
    prime := c.prime
    r := match c.r with
      | none => s.r
      | some v => v % 2 ^ s.cfg.opw
    mrRounds := match c.rounds with
      | none => s.mrRounds
      | some k => BitVec.ofNat 16 k
    doneIrq := true }

/-- A write dropped because the block is BUSY (R67): only WERR changes. -/
def State.dropWrite (s : State) : State := { s with werr := true }

/-- The block reset (R191): every piece of the block's state takes its value of R39; a command in
progress is discarded. The parameters, the host and the block's inputs are not the block's state. -/
def State.blockReset (s : State) : State :=
  { s with
    a := 0
    e := 0
    n := 0
    r := 0
    cmdLast := 0x00000000
    phase := .idle
    done := false
    werr := false
    prime := false
    err := .ok
    irqEn := false
    doneIrq := false
    iter := 0x0028
    mrRounds := 0
    wait := 0 }

/-- The `i`-th answer the entropy source gives from here on (R152): one that is ready; then, when the
source is live, a free value; when it is not, none comes (00_scope.md R9). -/
def State.draw (s : State) (i : Nat) : Option Nat :=
  match s.entropy[i]? with
  | some x => some x
  | none =>
    if s.cfg.entropyLive then some (Config.entropyAnswer (s.freeCount + (i - s.entropy.length)))
    else none

/-- The first `k` answers have been used. -/
def State.consumeDraws (k : Nat) (s : State) : State :=
  { s with
    entropy := s.entropy.drop k
    freeCount := s.freeCount + (k - s.entropy.length) }

/-- The shape of a computing command's two events: when IDLE its take (R110, R112); in BUSY of this
command its completion (R114), or nothing while that is not enabled (R9); while another command runs,
an issue of this one is dropped (R67). -/
def State.runCommand (op : Op) (finish : State → Option State) (s : State) : State :=
  match s.phase with
  | .idle => (s.takeFirst (encode op.instr)).startCommand op
  | .busy running =>
    if running = op then (finish s).getD s else s.dropWrite

end Sys2Proof.Machine
end

