-- ==== Sys2Proof/Machine/Control.lean ====
section
/-! DEFINITION. The two commands that compute nothing: NOP and the illegal word
(40_command_control.md R111, R115). -/

namespace Sys2Proof.Machine

/-- `complete(OK, KEEP, 0, KEEP)` of R115. -/
def nopCompletion : Completion := { err := .ok, r := none, prime := false, rounds := none }

/-- `complete(ILLEGAL_CMD, KEEP, 0, KEEP)` of R111. -/
def illegalCompletion : Completion :=
  { err := .illegalCmd, r := none, prime := false, rounds := none }

/-- NOP (R115): it completes within its take; while a command runs it is dropped (R67). -/
def execNop (s : State) : Host.Outcome State Fault Refusal :=
  match s.phase with
  | .idle => .next ((s.takeFirst (encode .nop)).complete nopCompletion)
  | .busy _ => .next s.dropWrite

/-- The take of a word that spells no command (R111). -/
def State.takeIllegal (w : Word) (s : State) : State :=
  (s.takeFirst w).complete illegalCompletion

end Sys2Proof.Machine
end

