-- ==== Sys2Proof/Machine/ModInv.lean ====
section
/-! DEFINITION. MODINV: the modular inverse by the extended Euclidean algorithm (42_modinv.md). -/

namespace Sys2Proof.Machine

/-- What `extended_gcd` returns: g, x, y with a*x + b*y = g (R142). -/
structure Bezout where
  g : Nat
  x : Int
  y : Int
  deriving DecidableEq, Repr

/-- `extended_gcd(a, b)` of R142, on fuel: its first argument falls at each call, so fuel above it is
enough. -/
def extGcdFuel : Nat → Nat → Nat → Bezout
  | 0, _, b => { g := b, x := 0, y := 1 }
  | fuel + 1, a, b =>
    if a = 0 then { g := b, x := 0, y := 1 }
    else
      let t := extGcdFuel fuel (b % a) a
      { g := t.g, x := t.y - (b / a : Nat) * t.x, y := t.x }

/-- `extended_gcd(a, b)` (R142). -/
def extGcd (a b : Nat) : Bezout := extGcdFuel (a + 1) a b

/-- `x mod n` for the coefficient x of b: the least non-negative residue (R11, R140). -/
def inverseMod (b n : Nat) : Nat := ((extGcd b n).x % (n : Int)).toNat

/-- The completion of MODINV for the value `b` and the modulus `n` (R140). -/
def modinvCompletion (b n : Nat) : Completion :=
  if n < 2 then { err := .invalidArgument, r := some 0, prime := false, rounds := some 0 }
  else if (extGcd b n).g ≠ 1 then { err := .noInverse, r := some 0, prime := false, rounds := some 0 }
  else { err := .ok, r := some (inverseMod b n), prime := false, rounds := some 0 }

/-- MODINV (R140): its take when IDLE, its completion in BUSY(MODINV). -/
def execModinv (s : State) : Host.Outcome State Fault Refusal :=
  .next (s.runCommand .modinv fun s => some (s.complete (modinvCompletion (s.val .a) (s.val .n))))

end Sys2Proof.Machine
end

