-- ==== Sys2Proof/Machine/ModExp.lean ====
section
/-! DEFINITION. MODEXP: modular exponentiation (41_modexp.md), in the two reference forms of its
section 2, chosen by EXP_FORM (00_scope.md R7, R131). -/

namespace Sys2Proof.Machine

/-- The loop of `ladder`, from bit `k - 1` of the exponent down to bit 0, on r0 and r1. -/
def ladderLoop (e n : Nat) : Nat → Nat → Nat → Nat
  | 0, r0, _ => r0
  | k + 1, r0, r1 =>
    if e.testBit k then ladderLoop e n k (r0 * r1 % n) (r1 * r1 % n)
    else ladderLoop e n k (r0 * r0 % n) (r0 * r1 % n)

/-- `ladder(a, e, n)`: the binary ladder over all `bits` exponent bits (41_modexp.md section 2). -/
def ladder (bits a e n : Nat) : Nat := ladderLoop e n bits (1 % n) (a % n)

/-- The constants of the Montgomery form for a modulus (10_state.md R37): RM = 2^K and
`ninv` with n * ninv = -1 mod RM. -/
structure MontConst where
  n : Nat
  rm : Nat
  ninv : Nat
  deriving DecidableEq, Repr

/-- K = OPW + 2 (41_modexp.md section 2). -/
def montConst (bits n : Nat) : MontConst :=
  { n := n, rm := 2 ^ (bits + 2), ninv := 2 ^ (bits + 2) - inverseMod n (2 ^ (bits + 2)) }

/-- The Montgomery reduction of t: t * RM^(-1) mod n for t < RM * n, with no division by n. -/
def redc (c : MontConst) (t : Nat) : Nat :=
  let m := t % c.rm * c.ninv % c.rm
  let u := (t + m * c.n) / c.rm
  if c.n ≤ u then u - c.n else u

/-- The Montgomery product `mont(x, y) = x * y * RM^(-1) mod n` (41_modexp.md section 2). -/
def mont (c : MontConst) (x y : Nat) : Nat := redc c (x * y)

/-- The loop of `montexp`, from bit `k - 1` of the exponent down to bit 0. -/
def montLoop (c : MontConst) (e abar : Nat) : Nat → Nat → Nat
  | 0, acc => acc
  | k + 1, acc =>
    let sq := mont c acc acc
    montLoop c e abar k (if e.testBit k then mont c sq abar else sq)

/-- `montexp(a, e, n)`, for odd n of 3 or more (41_modexp.md section 2). -/
def montExp (bits a e n : Nat) : Nat :=
  let c := montConst bits n
  let r2 := c.rm ^ 2 % n
  mont c (montLoop c e (mont c (a % n) r2) bits (mont c 1 r2)) 1

/-- The block's exponentiation: `a^e mod n` for n of 1 or more and e below 2^OPW, by the form
EXP_FORM. The Montgomery form takes the ladder for even n and n = 1 (R131). -/
def modExp (c : Config) (a e n : Nat) : Nat :=
  match c.expForm with
  | .ladder => ladder c.opw a e n
  | .montgomery =>
    if n % 2 = 1 ∧ 3 ≤ n then montExp c.opw a e n else ladder c.opw a e n

/-- The completion of MODEXP for base `a`, exponent `e`, modulus `n` (R130). -/
def modexpCompletion (c : Config) (a e n : Nat) : Completion :=
  if n = 0 then { err := .invalidArgument, r := some 0, prime := false, rounds := some 0 }
  else { err := .ok, r := some (modExp c a e n), prime := false, rounds := some 0 }

/-- MODEXP (R130): its take when IDLE, its completion in BUSY(MODEXP). -/
def execModexp (s : State) : Host.Outcome State Fault Refusal :=
  .next (s.runCommand .modexp fun s =>
    some (s.complete (modexpCompletion s.cfg (s.val .a) (s.val .e) (s.val .n))))

end Sys2Proof.Machine
end

