-- ==== Sys2Proof/Machine/MillerRabin.lean ====
section
/-! DEFINITION. MRTEST and MRWIT: the Miller-Rabin test (43_miller_rabin.md). -/

namespace Sys2Proof.Machine

/-- Halve the even part of `m`, counting in `k`, on fuel (00_scope.md R19). -/
def splitFuel : Nat → Nat → Nat → Nat × Nat
  | 0, m, k => (m, k)
  | fuel + 1, m, k => if m % 2 = 0 then splitFuel fuel (m / 2) (k + 1) else (m, k)

/-- `(m, s) = split(n)`: n - 1 = m * 2^s with m odd, for odd n of 3 or more (R19). -/
def split (n : Nat) : Nat × Nat := splitFuel n (n - 1) 0

/-- The answer of the pre-checks (R150). -/
inductive PreCheck where
  | trivialPrime
  | trivialComposite
  | rounds (m s : Nat)
  deriving DecidableEq, Repr

/-- `mr_pre(n)` (R150). -/
def mrPre (n : Nat) : PreCheck :=
  if n = 1 ∨ n = 2 then .trivialPrime
  else if n % 2 = 0 then .trivialComposite
  else .rounds (split n).1 (split n).2

/-- The squarings of one round (R151): up to `k` more, passing when one reaches n - 1. -/
def mrSquare (n : Nat) : Nat → Nat → Bool
  | 0, _ => false
  | k + 1, x =>
    let y := x * x % n
    if y = n - 1 then true else mrSquare n k y

/-- `mr_round(n, m, s, a)` (R151): true is PASS. -/
def mrRound (c : Config) (n m s a : Nat) : Bool :=
  let x := modExp c a m n
  if x = 1 ∨ x = n - 1 then true else mrSquare n (s - 1) x

/-- `Draw_witness(lo, hi)` (00_scope.md R15): a witness in [lo, hi] from one raw answer of the
entropy source, an answer in the range standing for itself. Every value in the range can come
(R152; how answers are mapped is the implementation's, R79; log 4). -/
def drawWitness (lo hi x : Nat) : Nat :=
  if lo ≤ x ∧ x ≤ hi then x else lo + x % (hi - lo + 1)

/-- The rounds of MRTEST (R153) on the answers `draw`: `left` rounds to go, `i` done, `last` the last
witness. None: an answer that is needed does not come (R9). -/
def mrLoop (c : Config) (n m s : Nat) (draw : Nat → Option Nat) : Nat → Nat → Nat → Option Completion
  | 0, i, last => some { err := .ok, r := some last, prime := true, rounds := some i }
  | left + 1, i, _ =>
    match draw i with
    | none => none
    | some x =>
      let a := drawWitness 2 (n - 2) x
      if mrRound c n m s a then mrLoop c n m s draw left (i + 1) a
      else some { err := .ok, r := some a, prime := false, rounds := some (i + 1) }

/-- The completion of MRTEST for the candidate `n` and `k` iterations on the answers `draw` (R153). -/
def mrtestCompletion (c : Config) (n k : Nat) (draw : Nat → Option Nat) : Option Completion :=
  match mrPre n with
  | .trivialPrime => some { err := .ok, r := some 0, prime := true, rounds := some 0 }
  | .trivialComposite => some { err := .ok, r := some 0, prime := false, rounds := some 0 }
  | .rounds m s =>
    if n = 3 then some { err := .ok, r := some 0, prime := true, rounds := some 0 }
    else mrLoop c n m s draw k 0 0

/-- The completion the running MRTEST would make now; none while it waits for entropy (R152). -/
def State.mrtestResult (s : State) : Option Completion :=
  mrtestCompletion s.cfg (s.val .n) s.iter.toNat s.draw

/-- The completion step of MRTEST (R114, R153): one answer was used for each round. -/
def State.finishMrtest (s : State) : Option State :=
  match s.mrtestResult with
  | none => none
  | some c => some ((s.consumeDraws (c.rounds.getD 0)).complete c)

/-- MRTEST (R153): its take when IDLE, its completion in BUSY(MRTEST). -/
def execMrtest (s : State) : Host.Outcome State Fault Refusal :=
  .next (s.runCommand .mrtest State.finishMrtest)

/-- The completion of MRWIT for the candidate `n` and the witness `a` (R154). -/
def mrwitCompletion (c : Config) (n a : Nat) : Completion :=
  match mrPre n with
  | .trivialPrime => { err := .ok, r := some 0, prime := true, rounds := some 0 }
  | .trivialComposite => { err := .ok, r := some 0, prime := false, rounds := some 0 }
  | .rounds m s =>
    if a < 2 ∨ n - 2 < a then
      { err := .invalidArgument, r := some 0, prime := false, rounds := some 0 }
    else { err := .ok, r := some a, prime := mrRound c n m s a, rounds := some 1 }

/-- MRWIT (R154): its take when IDLE, its completion in BUSY(MRWIT). -/
def execMrwit (s : State) : Host.Outcome State Fault Refusal :=
  .next (s.runCommand .mrwit fun s =>
    some (s.complete (mrwitCompletion s.cfg (s.val .n) (s.val .a))))

/-- MRTEST is BUSY and its next draw does not come (R9, R152): no engine step is enabled. -/
def State.waitsForEntropy (s : State) : Bool :=
  match s.phase with
  | .busy .mrtest => s.mrtestResult.isNone
  | _ => false

/-- MRTEST is BUSY on a candidate whose test draws witnesses: odd and 5 or more, with ITER not 0 (R153). -/
def State.drawsWitnesses (s : State) : Bool :=
  match s.phase with
  | .busy .mrtest => decide (5 ≤ s.val .n ∧ s.val .n % 2 = 1 ∧ s.iter ≠ 0)
  | _ => false

end Sys2Proof.Machine
end

