-- ==== Sys2Proof/Machine/Dispatch.lean ====
section
/-! DEFINITION. One arm for each command, each one call of its meaning. -/

namespace Sys2Proof.Machine

def exec (i : Instr) (s : State) : Host.Outcome State Fault Refusal :=
  match i with
  | .nop => Sys2Proof.Machine.execNop s
  | .modexp => Sys2Proof.Machine.execModexp s
  | .modinv => Sys2Proof.Machine.execModinv s
  | .mrtest => Sys2Proof.Machine.execMrtest s
  | .mrwit => Sys2Proof.Machine.execMrwit s

end Sys2Proof.Machine
end

