-- ==== Sys2Proof/Machine/Bus.lean ====
section
/-! DEFINITION. The slave port: one host transaction (20_memory.md R64 to R71). -/

namespace Sys2Proof.Machine

/-- The port's answer to a transaction. -/
def State.respond (r : Response) (s : State) : State := { s with resp := some r }

/-- A well-formed read (R65, R68, R69): it changes no register. A word of R while BUSY is a free value,
a fresh one for each read. -/
def State.readAccess (off : Offset) (s : State) : State :=
  match locate s.cfg off with
  | .result i =>
    if s.busy then
      { s with resp := some (.readOkay (Config.unspecWord s.freeCount)), freeCount := s.freeCount + 1 }
    else s.respond (.readOkay (s.peek (.result i)))
  | l => s.respond (.readOkay (s.peek l))

/-- A CMD write (R110): dropped while BUSY; else taken as the command it spells, or as ILLEGAL. -/
def writeCmd (w : Word) (s : State) : Host.Outcome State Fault Refusal :=
  if s.busy then .next s.dropWrite
  else match decode w with
    | .ok i => exec i s
    | .error _ => .next (s.takeIllegal w)

/-- A CTRL write (R32, R191): the reset wins over bit 0. -/
def State.writeCtrl (w : Word) (s : State) : State :=
  if ctrlSrst w then s.blockReset else { s with irqEn := ctrlIrqEn w }

/-- An INTSTAT write (R33): W1C. -/
def State.writeIntstat (w : Word) (s : State) : State :=
  { s with doneIrq := s.doneIrq && !intstatClear w }

/-- An ITER write (R34, R67). -/
def State.writeIter (w : Word) (s : State) : State :=
  if s.busy then s.dropWrite else { s with iter := iterField w }

/-- A write of a word of A, E or N (R62, R67). -/
def State.writeOperand (x : OperandReg) (i : Nat) (w : Word) (s : State) : State :=
  if s.busy then s.dropWrite else s.setOperandWord x i w

/-- A well-formed write at a place of the window (R61, R65, R66, R67, R70). -/
def writeLoc (l : Loc) (w : Word) (s : State) : Host.Outcome State Fault Refusal :=
  match l with
  | .id => .next s
  | .param => .next s
  | .cmd => writeCmd w s
  | .status => .next s
  | .ctrl => .next (s.writeCtrl w)
  | .intstat => .next (s.writeIntstat w)
  | .iter => .next (s.writeIter w)
  | .mrRounds => .next s
  | .operand x i => .next (s.writeOperand x i w)
  | .result _ => .next s
  | .reserved => .next s

/-- R64: only a 32-bit access at an aligned offset is well formed. -/
def wellFormedAccess (size : Size) (off : Offset) : Bool := decide (size = .b32) && aligned off

/-- `MemRead(off, size)` (00_scope.md R14, R17; R64). -/
def memRead (size : Size) (off : Offset) (s : State) : State :=
  if wellFormedAccess size off then s.readAccess off else s.respond .readError

/-- `MemWrite(off, size, w)` (00_scope.md R14, R17; R64). Every well-formed write is answered OKAY. -/
def memWrite (size : Size) (off : Offset) (w : Word) (s : State) :
    Host.Outcome State Fault Refusal :=
  if wellFormedAccess size off then writeLoc (locate s.cfg off) w (s.respond .writeOkay)
  else .next (s.respond .writeError)

/-- The data word of a response (R17): 0 with an ERROR. DESIGN CHOICE (log 9): 0 for a write, where the
spec gives no read data and no one reads it. -/
def Response.data : Response → Word
  | .readOkay w => w
  | .readError => 0
  | .writeOkay => 0
  | .writeError => 0

/-- The port s_err with the answer (20_memory.md R78). -/
def Response.isError : Response → Bool
  | .readOkay _ => false
  | .readError => true
  | .writeOkay => false
  | .writeError => true

/-- The word the last transaction returned. -/
def State.lastData (s : State) : Word :=
  match s.resp with
  | none => 0
  | some r => r.data

end Sys2Proof.Machine
end

