-- ==== Sys2Proof/Machine/HostAgent.lean ====
section
/-! DEFINITION. The host agent's moves (00_scope.md R16; 30_encoding.md R98): one line of its program
at a time. -/

namespace Sys2Proof.Machine

/-- The value of a temporary; one never written reads 0 (log 6). -/
def tempGet : List (Nat × Int) → Nat → Int
  | [], _ => 0
  | (k, v) :: rest, t => if k = t then v else tempGet rest t

/-- Put a nonzero value at a name, keeping the names rising. -/
def tempInsert : List (Nat × Int) → Nat → Int → List (Nat × Int)
  | [], t, v => [(t, v)]
  | (k, u) :: rest, t, v =>
    if t < k then (t, v) :: (k, u) :: rest
    else if t = k then (t, v) :: rest
    else (k, u) :: tempInsert rest t v

/-- Write a temporary; an entry 0 is not listed. -/
def tempSet (m : List (Nat × Int)) (t : Nat) (v : Int) : List (Nat × Int) :=
  if v = 0 then m.filter fun p => p.1 ≠ t else tempInsert m t v

/-- The canonical form of the temporaries: names rising, no entry 0. -/
def tempsWf (m : List (Nat × Int)) : Bool :=
  decide (m.Pairwise fun p q => p.1 < q.1) && m.all fun p => decide (p.2 ≠ 0)

/-- Host arithmetic (R98), `div` and `mod` as in 00_scope.md R11; where R11 gives no value, a free one. -/
def HostExpr.eval (m : List (Nat × Int)) : HostExpr → Int
  | .lit v => v
  | .temp t => tempGet m t
  | .add x y => x.eval m + y.eval m
  | .sub x y => x.eval m - y.eval m
  | .mul x y => x.eval m * y.eval m
  | .div x y => if y.eval m = 0 then Config.hostOpenDiv (x.eval m) else Int.fdiv (x.eval m) (y.eval m)
  | .mod x y =>
    if 0 < y.eval m then x.eval m % y.eval m else Config.hostOpenMod (x.eval m) (y.eval m)

/-- `t AND mask` (R98), for t and mask of any size. DESIGN CHOICE (log 6): a negative t is taken in two's
complement, where R98 gives no bits of a negative number. -/
def andMask : Int → Nat → Nat
  | .ofNat k, mask => k &&& mask
  | .negSucc k, mask => mask ^^^ (mask &&& k)

/-- The test of BNZ and BZ: `(t AND mask) != 0` (R98). -/
def maskedNonzero (v : Int) (mask : Nat) : Bool := decide (andMask v mask ≠ 0)

/-- The position of a label: the first line that declares it (R98). -/
def labelPos (p : List HostOp) (l : Label) : Option Nat := p.findIdx? fun op => op == .label l

/-- Whether a line can be executed: `WR off, t` needs 0 <= t < 2^32 (R98), and a branch that is taken
needs its label. A host at any other line is stuck there (log 6). -/
def HostAgent.ready (h : HostAgent) : HostOp → Bool
  | .wr _ (.imm _) => true
  | .wr _ (.temp t) => decide (0 ≤ tempGet h.temps t ∧ tempGet h.temps t < 2 ^ 32)
  | .rd _ _ => true
  | .label _ => true
  | .bnz t mask l => !maskedNonzero (tempGet h.temps t) mask || (labelPos h.prog l).isSome
  | .bz t mask l => maskedNonzero (tempGet h.temps t) mask || (labelPos h.prog l).isSome
  | .compute _ _ => true
  | .busRead _ _ => true
  | .busWrite _ _ _ => true

/-- The line the host executes next; none when its program has ended or it is stuck. -/
def HostAgent.next (h : HostAgent) : Option HostOp :=
  match h.prog[h.pc]? with
  | none => none
  | some op => if h.ready op then some op else none

/-- The word a WR writes (R98). -/
def HostAgent.srcWord (h : HostAgent) : Src → Word
  | .imm w => w
  | .temp t => BitVec.ofInt 32 (tempGet h.temps t)

/-- The host goes to its next line, and one host move fewer is left before the completion (R73). -/
def State.advance (s : State) : State :=
  { s with host := { s.host with pc := s.host.pc + 1 }, wait := s.wait - 1 }

/-- Write a host temporary. -/
def State.setTemp (t : Temp) (v : Int) (s : State) : State :=
  { s with host := { s.host with temps := tempSet s.host.temps t v } }

/-- Go to a label. -/
def State.jump (l : Label) (s : State) : State :=
  { s with host := { s.host with pc := (labelPos s.host.prog l).getD s.host.pc } }

/-- `RD off -> t` (R98): the word read, 0 with an ERROR, becomes the temporary's value. -/
def State.readInto (off : Offset) (t : Temp) (s : State) : State :=
  let s' := memRead .b32 off s
  s'.setTemp t s'.lastData.toNat

/-- One line of the host program (R98), in a state that has moved past it. A raw access at an address
outside the window does not reach the block (00_scope.md R8). -/
def hostOp (op : HostOp) (s : State) : Host.Outcome State Fault Refusal :=
  match op with
  | .wr off src => memWrite .b32 off (s.host.srcWord src) s
  | .rd off t => .next (s.readInto off t)
  | .label _ => .next s
  | .bnz t mask l => .next (if maskedNonzero (tempGet s.host.temps t) mask then s.jump l else s)
  | .bz t mask l => .next (if maskedNonzero (tempGet s.host.temps t) mask then s else s.jump l)
  | .compute t x => .next (s.setTemp t (x.eval s.host.temps))
  | .busRead addr size =>
    match offsetOf s.cfg addr with
    | none => .next s
    | some off => .next (memRead size off s)
  | .busWrite addr size w =>
    match offsetOf s.cfg addr with
    | none => .next s
    | some off => memWrite size off w s

/-- The host's move: its next line, or nothing when it has none to execute. -/
def hostMove (s : State) : Host.Outcome State Fault Refusal :=
  match s.host.next with
  | none => .next s
  | some op => hostOp op s.advance

/-- The time of the running command has come (R73, R204): no host move is left before its completion, or
the host has none to make (log 3). -/
def State.engineDue (s : State) : Bool := decide (s.wait = 0) || s.host.next.isNone

/-- Whether the engine moves now: its time has come, and its completion is enabled. -/
def State.engineTurn (s : State) : Bool := s.busy && !s.waitsForEntropy && s.engineDue

/-- The output ent_req between two steps (20_memory.md R78, R79; log 11): low unless a running MRTEST draws
witnesses; high when all that is missing is an answer of the entropy source; else at any level. -/
def State.entReq (s : State) : Bool :=
  s.drawsWitnesses &&
    ((s.waitsForEntropy && s.engineDue) || Config.entReqLevel s.freeCount s.wait)

/-- The engine's move: the completion of the running command (R114). -/
def engineMove (s : State) : Host.Outcome State Fault Refusal :=
  match s.phase with
  | .idle => .next s
  | .busy op => exec op.instr s

/-- rst_n is low at this step (R190). -/
def State.rstAsserted (s : State) : Bool := s.rstN.head? == some false

/-- The sample of rst_n is used up. -/
def State.tick (s : State) : State := { s with rstN := s.rstN.tail }

/-- One step: a reset while rst_n is low (R190, R191), else one move of the engine or of the host. -/
def stepMove (s : State) : Host.Outcome State Fault Refusal :=
  if s.rstAsserted then .next s.tick.blockReset
  else if s.tick.engineTurn then engineMove s.tick
  else hostMove s.tick

/-- The state with a CMD write of `w` as the host's next line, on an idle engine and with rst_n high,
so that the very next step takes that word (log 8). -/
def State.placeCommand (w : Word) (s : State) : State :=
  { s with
    phase := .idle
    rstN := []
    host := { s.host with
      prog := s.host.prog.take s.host.pc ++ .wr offCmd (.imm w) :: s.host.prog.drop s.host.pc
      pc := min s.host.pc s.host.prog.length } }

end Sys2Proof.Machine
end

