-- ==== Sys2Proof/Machine/Step.lean ====
section
/-! DEFINITION. The step of RSA-NTC (00_scope.md R16), and where the next command is placed. -/

namespace Sys2Proof.Machine

/-- One step of one agent. -/
def step (s : State) : Host.Outcome State Fault Refusal := stepMove s

/-- `s` with the command word `w` (bits above `nbits` 0) where `step` takes its next command: a CMD
write as the host's next line (20_memory.md R76; log 8). -/
def State.withFetchWord (s : State) (nbits w : Nat) : State :=
  s.placeCommand (BitVec.ofNat 32 (w % 2 ^ nbits))

end Sys2Proof.Machine
end

