-- ==== Sys2Proof/WellFormed.lean ====
section
/-! DEFINITION. Well-formedness of syntax. A command has no operand field (30_encoding.md R92), so
every command is well formed. A host program (R98) is well formed when its labels are distinct and
its branches go to labels it has; an LDOP value must fit OPW bits (R99). -/

namespace Sys2Proof

/-- Every command is well formed: it has no field that could be out of range (R92). -/
def Instr.wf : Instr → Bool
  | .nop => true
  | .modexp => true
  | .modinv => true
  | .mrtest => true
  | .mrwit => true

namespace Machine

/-- The labels a program declares, in order. -/
def labelsOf (p : List HostOp) : List Label :=
  p.filterMap fun
    | .label l => some l
    | _ => none

/-- The labels a program's branches name. -/
def targetsOf (p : List HostOp) : List Label :=
  p.filterMap fun
    | .bnz _ _ l => some l
    | .bz _ _ l => some l
    | _ => none

/-- R98: a label is one position, and a branch goes to a position. -/
def hostProgWf (p : List HostOp) : Bool :=
  decide (labelsOf p).Nodup && (targetsOf p).all fun l => decide (l ∈ labelsOf p)

/-- R99: `LDOP X, v` needs `0 <= v < 2^OPW`. -/
def ldopWf (c : Config) (v : Nat) : Bool := decide (v < 2 ^ c.opw)

/-- R99: `LDOP0 X, v` is legal only when words 1 and up of X (value `old`) are known to be 0. -/
def ldop0Wf (old : Nat) : Bool := decide (old < 2 ^ 32)

end Machine

end Sys2Proof
end

