-- ==== Sys2Proof/Safety.lean ====
section
/-! DEFINITION. The terms claims use: the invariant of a run, the number theory of a Miller-Rabin round,
and the end of a run (70_reset_and_hazards.md R206). -/

namespace Sys2Proof.Machine

/-- What holds in every state of a run (10_state.md R21, R22, R27 to R31, R36). -/
structure State.Inv (s : State) : Prop where
  /-- Operand and result registers hold OPW bits (R6, R21, R22). -/
  a_lt : s.a < 2 ^ s.cfg.opw
  e_lt : s.e < 2 ^ s.cfg.opw
  n_lt : s.n < 2 ^ s.cfg.opw
  r_lt : s.r < 2 ^ s.cfg.opw
  /-- While BUSY the status of the last command is clear (R28, R30, R31, R68). -/
  busy_clear : s.busy = true → s.done = false ∧ s.prime = false ∧ s.err = .ok
  /-- The running command is the last command taken (R25, R36). -/
  busy_cmd : ∀ op, s.phase = .busy op → s.cmdLast = encode op.instr
  /-- DONE = 0 with BUSY = 0: no command was taken since reset (R28), and no result is there (R39). -/
  fresh : s.busy = false → s.done = false →
    s.cmdLast = 0 ∧ s.r = 0 ∧ s.mrRounds = 0 ∧ s.prime = false ∧ s.err = .ok ∧
      s.werr = false ∧ s.doneIrq = false
  /-- PRIME = 1 only after MRTEST or MRWIT, with ERR = OK (R30). -/
  prime_src : s.prime = true →
    s.err = .ok ∧ (s.cmdLast = encode .mrtest ∨ s.cmdLast = encode .mrwit)
  /-- ERR = ILLEGAL_CMD exactly when the last completed command was an illegal word (R171). -/
  illegal_src : s.done = true →
    (s.err = .illegalCmd ↔ ∃ why, decode s.cmdLast = .error why)
  /-- INVALID_ARGUMENT comes from MODEXP, MODINV or MRWIT, and leaves R and MR_ROUNDS 0 (R171). -/
  invalid_src : s.err = .invalidArgument →
    (s.cmdLast = encode .modexp ∨ s.cmdLast = encode .modinv ∨ s.cmdLast = encode .mrwit) ∧
      s.r = 0 ∧ s.mrRounds = 0
  /-- NO_INVERSE comes from MODINV, and leaves R and MR_ROUNDS 0 (R171). -/
  no_inverse_src : s.err = .noInverse →
    s.cmdLast = encode .modinv ∧ s.r = 0 ∧ s.mrRounds = 0
  /-- The host's temporaries keep their canonical form. -/
  temps_wf : tempsWf s.host.temps = true

/-- The witness `a` passes the Miller-Rabin round of `n`, as number theory (43_miller_rabin.md R151 with
00_scope.md R19): with n - 1 = m * 2^s and m odd, a^m is 1, or some a^(m * 2^j) with j < s is n - 1. -/
def passesRound (n a : Nat) : Prop :=
  ∃ m s, n - 1 = m * 2 ^ s ∧ m % 2 = 1 ∧
    (a ^ m % n = 1 ∨ ∃ j, j < s ∧ a ^ (m * 2 ^ j) % n = n - 1)

/-- The end of a run (R206): the host has stopped, and the engine is IDLE. DESIGN CHOICE (log 6): a host
stuck at a line it cannot execute counts as stopped, since it issues no further transaction; a host
that still executes lines does not, even where none of those to come is a transaction. -/
abbrev State.final (s : State) : Prop := s.phase = .idle ∧ s.host.next = none

/-- The write transaction that a line of the host program makes in the state `s`, if it makes one (R98): its
size, offset and word. -/
def State.writeOf (s : State) : HostOp → Option (Size × Offset × Word)
  | .wr off src => some (.b32, off, s.host.srcWord src)
  | .rd _ _ => none
  | .label _ => none
  | .bnz _ _ _ => none
  | .bz _ _ _ => none
  | .compute _ _ => none
  | .busRead _ _ => none
  | .busWrite addr size w => (offsetOf s.cfg addr).map fun off => (size, off, w)

/-- The step of `s` is the host's 32-bit write of `w` at offset `off`: rst_n is high, it is the host's turn,
and its next line makes that write. -/
def State.hostWrites (off : Offset) (w : Word) (s : State) : Prop :=
  s.rstN.head? ≠ some false ∧ s.tick.engineTurn = false ∧
    ∃ op, s.host.next = some op ∧ s.writeOf op = some (.b32, off, w)

/-- The step of `s` is a reset (R190): rst_n is low, or the host writes CTRL with SRST = 1. -/
def State.resets (s : State) : Prop :=
  s.rstN.head? = some false ∨ ∃ w, w.getLsbD 2 = true ∧ s.hostWrites offCtrl w

/-- The same state of a block with the other parameters `c` (00_scope.md R7, for form independence). -/
def State.withForm (f : ExpForm) (s : State) : State :=
  { s with cfg := { s.cfg with expForm := f } }

end Sys2Proof.Machine
end

