-- ==== Sys2Proof/Certificates/Slice0/Obligations.lean ====
section
/-! DEFINITION. The statements for the provers: what the numbered rules of spec/ say RSA-NTC does.
Every statement is about every configuration (OPW, EXP_FORM, BASE, ENTROPY_LIVE) unless it says
otherwise. A next state is written as a record update, so that a field it does not name is unchanged. -/

open Sys2Proof Sys2Proof.Machine

/-! ## Reset and invariants -/

/-- R39: the table of reset values, as the host reads them, from any state and in any configuration. -/
def Obligations.ResetLeavesTheStatedValues : Prop :=
  (∀ (s : State) (x : OperandReg),
    s.blockReset.val x = 0 ∧ s.blockReset.valR = 0 ∧
    s.blockReset.cmdLast = 0x00000000 ∧ s.blockReset.statusWord = 0x00000000 ∧
    s.blockReset.ctrlWord = 0x00000000 ∧ s.blockReset.intstatWord = 0x00000000 ∧
    s.blockReset.iterWord = 0x00000028 ∧ s.blockReset.roundsWord = 0x00000000 ∧
    s.blockReset.phase = .idle ∧ s.blockReset.irq = false ∧
    s.blockReset.peek .id = 0x4E540001 ∧ s.blockReset.peek .param = paramWord s.cfg) ∧
  ∀ c : Config, (State.resetOf c).blockReset = State.resetOf c

/-- R190, R191: both reset sources do the same reset; a command in progress leaves no completion, and
the lines irq and ent_req deassert. That the host is not served while rst_n is low is the model's choice
(log 5). -/
def Obligations.BothResetSourcesReset : Prop :=
  (∀ (s : State) (w : Word), w.getLsbD 2 = true →
    memWrite .b32 offCtrl w s = .next { s.blockReset with resp := some .writeOkay }) ∧
  (∀ s : State, s.rstN.head? = some false →
    step s = .next { s.blockReset with rstN := s.rstN.tail }) ∧
  ∀ s : State, s.blockReset.phase = .idle ∧ s.blockReset.done = false ∧
    s.blockReset.doneIrq = false ∧ s.blockReset.irq = false ∧ s.blockReset.entReq = false

/-- The run invariant holds after reset, in every configuration. -/
def Obligations.InvariantHoldsAfterReset : Prop :=
  ∀ c : Config, (State.resetOf c).Inv

/-- Every step of every agent keeps the run invariant (R21, R22, R25, R28, R30, R31, R171). -/
def Obligations.StepKeepsTheInvariant : Prop :=
  ∀ s t : State, s.Inv → step s = .next t → t.Inv

/-- The parameters never change (R6 to R9). -/
def Obligations.StepKeepsTheConfiguration : Prop :=
  ∀ s t : State, step s = .next t → t.cfg = s.cfg

/-- R17, R170: nothing faults the machine and nothing halts it; every state has a next one. -/
def Obligations.EveryStepAnswersANextState : Prop :=
  ∀ s : State, ∃ t, step s = .next t

/-! ## Encoding -/

/-- R91, R94: a word decodes to a command exactly when it is that command's word of the opcode map. -/
def Obligations.DecodeAndEncodeAgree : Prop :=
  ∀ (w : Word) (i : Instr), decode w = .ok i ↔ w = encode i

/-- R95: a word is illegal exactly when RSV is not 0, or OPC is 5 or more. -/
def Obligations.IllegalWordsAreExactlyTheUnassigned : Prop :=
  ∀ w : Word, (∃ why, decode w = .error why) ↔
    (w.extractLsb' 4 28 ≠ 0 ∨ 5 ≤ (w.extractLsb' 0 4).toNat)

/-- R94: the five words of the opcode map, and three words next to them. -/
def Obligations.OpcodeMapWordsDecode : Prop :=
  decode 0x00000000 = .ok .nop ∧ decode 0x00000001 = .ok .modexp ∧
  decode 0x00000002 = .ok .modinv ∧ decode 0x00000003 = .ok .mrtest ∧
  decode 0x00000004 = .ok .mrwit ∧ decode 0x00000005 = .error .unassignedOpcode ∧
  decode 0x00000010 = .error .reservedBits ∧ decode 0xFFFFFFFF = .error .reservedBits

/-- R63, R96: four bytes, lowest offset first, decode to a command exactly when they are its word in
little-endian order, and the bytes after them are left. -/
def Obligations.CommandBytesAreLittleEndian : Prop :=
  ∀ (b0 b1 b2 b3 : Byte) (rest : List Byte) (i : Instr),
    decodeBytes (b0 :: b1 :: b2 :: b3 :: rest) = .ok (i, rest) ↔
      (encode i).toNat = b0.toNat + 2 ^ 8 * b1.toNat + 2 ^ 16 * b2.toNat + 2 ^ 24 * b3.toNat

/-! ## Steps -/

/-- A step runs the decoded command: a CMD write that is the host's next line on an idle engine is
`exec` of the command its word spells, in the state with the line passed and OKAY answered; the
engine's turn is `exec` of the running command; and `withFetchWord` places exactly such a write. -/
def Obligations.StepRunsTheDecodedCommand : Prop :=
  (∀ (s : State) (src : Src) (i : Instr), s.rstN.head? ≠ some false → s.phase = .idle →
    s.host.next = some (.wr offCmd src) → decode (s.host.srcWord src) = .ok i →
    step s = exec i (s.tick.advance.respond .writeOkay)) ∧
  (∀ (s : State) (addr : Nat) (w : Word) (i : Instr), s.rstN.head? ≠ some false →
    s.phase = .idle → s.host.next = some (.busWrite addr .b32 w) →
    addr = s.cfg.base + 0x008 → decode w = .ok i →
    step s = exec i (s.tick.advance.respond .writeOkay)) ∧
  (∀ (s : State) (op : Op), s.rstN.head? ≠ some false → s.phase = .busy op →
    s.waitsForEntropy = false → s.wait = 0 ∨ s.host.next = none →
    step s = exec op.instr s.tick) ∧
  ∀ (s : State) (w : Word) (i : Instr), decode w = .ok i →
    step (s.withFetchWord 32 w.toNat) =
      exec i ((s.withFetchWord 32 w.toNat).tick.advance.respond .writeOkay)

/-! ## Commands: takes and completions -/

/-- R111: a taken illegal word completes at once with ILLEGAL_CMD and keeps R and MR_ROUNDS; while BUSY
it is not taken at all. -/
def Obligations.IllegalWordCompletesAtOnce : Prop :=
  ∀ (s : State) (w : Word), (w.extractLsb' 4 28 ≠ 0 ∨ 5 ≤ (w.extractLsb' 0 4).toNat) →
    (s.phase = .idle →
      memWrite .b32 offCmd w s = .next { s with
        resp := some .writeOkay, cmdLast := w, werr := false,
        done := true, err := .illegalCmd, prime := false, doneIrq := true }) ∧
    (s.busy = true →
      memWrite .b32 offCmd w s = .next { s with resp := some .writeOkay, werr := true })

/-- R115: NOP completes within its take, keeps R and MR_ROUNDS, and raises irq when it is enabled;
while BUSY it is dropped. -/
def Obligations.NopCompletesWithinItsTake : Prop :=
  ∀ s : State,
    (s.phase = .idle →
      exec .nop s = .next { s with
        cmdLast := 0x00000000, werr := false,
        done := true, err := .ok, prime := false, doneIrq := true }) ∧
    (s.phase = .idle → s.irqEn = true → ∃ t, exec .nop s = .next t ∧ t.irq = true) ∧
    (s.busy = true →
      memWrite .b32 offCmd 0x00000000 s = .next { s with resp := some .writeOkay, werr := true })

/-- R110, R112: the take of each computing command. R gets some value of OPW bits, about which nothing
is said; `wait` and `freeCount` are the model's own (logs 2, 3). Everything else is unchanged. -/
def Obligations.ComputingCommandIsTaken : Prop :=
  ∀ (s : State) (op : Op), s.phase = .idle →
    ∃ r l f, r < 2 ^ s.cfg.opw ∧
      exec op.instr s = .next { s with
        cmdLast := encode op.instr, werr := false, phase := .busy op,
        done := false, prime := false, err := .ok, r := r, wait := l, freeCount := f }

/-- R113: a completion leaves A, E, N, ITER, WERR, CTRL and CMD_LAST as they are, at every place of the
window but STATUS, INTSTAT, MR_ROUNDS and R, and sets DONE and DONE_IRQ. Only MRTEST uses entropy. -/
def Obligations.CompletionFrame : Prop :=
  ∀ (op : Op) (s t : State), s.phase = .busy op → s.waitsForEntropy = false →
    exec op.instr s = .next t →
    t.phase = .idle ∧ t.done = true ∧ t.doneIrq = true ∧
    t.a = s.a ∧ t.e = s.e ∧ t.n = s.n ∧ t.iter = s.iter ∧ t.werr = s.werr ∧
    t.irqEn = s.irqEn ∧ t.cmdLast = s.cmdLast ∧ t.cfg = s.cfg ∧ t.resp = s.resp ∧
    t.host = s.host ∧ t.rstN = s.rstN ∧
    (op ≠ .mrtest → t.entropy = s.entropy ∧ t.freeCount = s.freeCount) ∧
    ∀ l : Loc, l ≠ .status → l ≠ .intstat → l ≠ .mrRounds → (∀ i, l ≠ .result i) →
      t.peek l = s.peek l

/-- R130, R131, R133: MODEXP completes with A^E mod N in both forms, INVALID_ARGUMENT exactly for N = 0. -/
def Obligations.ModexpCompletesWithThePower : Prop :=
  ∀ s : State, s.phase = .busy .modexp →
    (s.val .n = 0 →
      exec .modexp s = .next { s with
        phase := .idle, done := true, err := .invalidArgument, prime := false,
        r := 0, mrRounds := 0, doneIrq := true }) ∧
    (s.val .n ≠ 0 →
      exec .modexp s = .next { s with
        phase := .idle, done := true, err := .ok, prime := false,
        r := s.val .a ^ s.val .e % s.val .n, mrRounds := 0, doneIrq := true })

/-- R140, R141, R143: MODINV completes with the one inverse in [1, N-1], NO_INVERSE exactly when N >= 2
and gcd(A, N) is not 1, INVALID_ARGUMENT exactly for N < 2. -/
def Obligations.ModinvCompletesWithTheInverse : Prop :=
  ∀ s : State, s.phase = .busy .modinv →
    (s.val .n < 2 →
      exec .modinv s = .next { s with
        phase := .idle, done := true, err := .invalidArgument, prime := false,
        r := 0, mrRounds := 0, doneIrq := true }) ∧
    (2 ≤ s.val .n → Nat.gcd (s.val .a) (s.val .n) ≠ 1 →
      exec .modinv s = .next { s with
        phase := .idle, done := true, err := .noInverse, prime := false,
        r := 0, mrRounds := 0, doneIrq := true } ∧
      ∀ x, s.val .a * x % s.val .n ≠ 1) ∧
    (2 ≤ s.val .n → Nat.gcd (s.val .a) (s.val .n) = 1 →
      ∃ x, 1 ≤ x ∧ x < s.val .n ∧ s.val .a * x % s.val .n = 1 ∧
        (∀ y, y < s.val .n → s.val .a * y % s.val .n = 1 → y = x) ∧
        exec .modinv s = .next { s with
          phase := .idle, done := true, err := .ok, prime := false,
          r := x, mrRounds := 0, doneIrq := true })

/-- R142: the reference `extended_gcd`, its base case, its step, and its contract. -/
def Obligations.ExtendedGcdMeetsItsContract : Prop :=
  (∀ b : Nat, extGcd 0 b = { g := b, x := 0, y := 1 }) ∧
  (∀ a b : Nat, a ≠ 0 →
    (extGcd a b).g = (extGcd (b % a) a).g ∧
    (extGcd a b).x = (extGcd (b % a) a).y - ((b / a : Nat) : Int) * (extGcd (b % a) a).x ∧
    (extGcd a b).y = (extGcd (b % a) a).x) ∧
  ∀ a b : Nat, (extGcd a b).g = Nat.gcd a b ∧
    (a : Int) * (extGcd a b).x + (b : Int) * (extGcd a b).y = ((Nat.gcd a b : Nat) : Int)

/-- R143: the inverse is unique, not 0, the same for b and b mod n, and what the block computes. -/
def Obligations.InverseIsUnique : Prop :=
  ∀ b n : Nat, 2 ≤ n → Nat.gcd b n = 1 →
    (∃! x, x < n ∧ b * x % n = 1) ∧ inverseMod b n < n ∧ b * inverseMod b n % n = 1 ∧
    inverseMod b n ≠ 0 ∧ inverseMod (b % n) n = inverseMod b n

/-- R150, R153: MRTEST on 1, 2, 3 and on even candidates completes without a draw. -/
def Obligations.MrtestDecidesTrivialCandidates : Prop :=
  ∀ s : State, s.phase = .busy .mrtest →
    ((s.val .n = 1 ∨ s.val .n = 2 ∨ s.val .n = 3) →
      exec .mrtest s = .next { s with
        phase := .idle, done := true, err := .ok, prime := true,
        r := 0, mrRounds := 0, doneIrq := true }) ∧
    (s.val .n % 2 = 0 → s.val .n ≠ 2 →
      exec .mrtest s = .next { s with
        phase := .idle, done := true, err := .ok, prime := false,
        r := 0, mrRounds := 0, doneIrq := true })

/-- R151, R152, R153: for an odd candidate of 5 or more, when the witnesses `w 0`, `w 1`, ... come from
the draws and all ITER of them pass, the verdict is PRIME = 1, R the last witness (0 with ITER = 0), and
MR_ROUNDS = ITER. One entropy answer is used a round. -/
def Obligations.MrtestAllWitnessesPass : Prop :=
  ∀ (s : State) (w : Nat → Nat), s.phase = .busy .mrtest → 5 ≤ s.val .n → s.val .n % 2 = 1 →
    (∀ i, i < s.iter.toNat → (s.draw i).map (drawWitness 2 (s.val .n - 2)) = some (w i)) →
    (∀ i, i < s.iter.toNat → passesRound (s.val .n) (w i)) →
    exec .mrtest s = .next { s with
      phase := .idle, done := true, err := .ok, prime := true,
      r := if s.iter.toNat = 0 then 0 else w (s.iter.toNat - 1),
      mrRounds := s.iter, doneIrq := true,
      entropy := s.entropy.drop s.iter.toNat,
      freeCount := s.freeCount + (s.iter.toNat - s.entropy.length) }

/-- R151, R152, R153: the first witness that fails ends the test: PRIME = 0, R that witness, MR_ROUNDS
its index counted from 1. -/
def Obligations.MrtestStopsAtTheFirstFailure : Prop :=
  ∀ (s : State) (w : Nat → Nat) (k : Nat), s.phase = .busy .mrtest →
    5 ≤ s.val .n → s.val .n % 2 = 1 → k < s.iter.toNat →
    (∀ i, i ≤ k → (s.draw i).map (drawWitness 2 (s.val .n - 2)) = some (w i)) →
    (∀ i, i < k → passesRound (s.val .n) (w i)) → ¬ passesRound (s.val .n) (w k) →
    exec .mrtest s = .next { s with
      phase := .idle, done := true, err := .ok, prime := false,
      r := w k, mrRounds := BitVec.ofNat 16 (k + 1), doneIrq := true,
      entropy := s.entropy.drop (k + 1),
      freeCount := s.freeCount + (k + 1 - s.entropy.length) }

/-- R9, R79, R152: when a draw that is needed does not come, the test completes nothing and stays BUSY.
That the answers that are ready stay unused meanwhile is the model's choice (log 4). That ent_req is high
once nothing but the answer is missing is the model's reading of R78 and R79 (log 11, DEDUCED). -/
def Obligations.MrtestWaitsForEntropy : Prop :=
  ∀ (s : State) (w : Nat → Nat) (k : Nat), s.phase = .busy .mrtest →
    5 ≤ s.val .n → s.val .n % 2 = 1 → k < s.iter.toNat →
    (∀ i, i < k → (s.draw i).map (drawWitness 2 (s.val .n - 2)) = some (w i)) →
    (∀ i, i < k → passesRound (s.val .n) (w i)) → s.draw k = none →
    s.waitsForEntropy = true ∧ (s.wait = 0 ∨ s.host.next = none → s.entReq = true) ∧
      exec .mrtest s = .next s

/-- ent_req, by the model's reading of R78, R79, R152 and R153 (log 11, DEDUCED for both clauses, unsafe for the
second): it is low except while an MRTEST that draws witnesses runs, that is one on an odd candidate of 5
or more with ITER not 0; and it is high while the running test lacks an answer and no host move is left
before its completion or the host has none to make. Its level between these is the model's free value,
about which nothing is said. -/
def Obligations.EntropyRequestFollowsTheDraws : Prop :=
  (∀ s : State, s.entReq = true →
    s.phase = .busy .mrtest ∧ 5 ≤ s.val .n ∧ s.val .n % 2 = 1 ∧ s.iter ≠ 0) ∧
  ∀ s : State, s.waitsForEntropy = true → (s.wait = 0 ∨ s.host.next = none) → s.entReq = true

/-- R152: a draw is in the range, and every witness of the range can come. -/
def Obligations.WitnessDrawsCoverTheRange : Prop :=
  ∀ lo hi : Nat, lo ≤ hi →
    (∀ x, lo ≤ drawWitness lo hi x ∧ drawWitness lo hi x ≤ hi) ∧
    ∀ a, lo ≤ a → a ≤ hi → drawWitness lo hi a = a

/-- R150, R151, R154: MRWIT, with the pre-checks first, the witness range next, then the one round. -/
def Obligations.MrwitRunsOneRound : Prop :=
  ∀ s : State, s.phase = .busy .mrwit →
    ((s.val .n = 1 ∨ s.val .n = 2) →
      exec .mrwit s = .next { s with
        phase := .idle, done := true, err := .ok, prime := true,
        r := 0, mrRounds := 0, doneIrq := true }) ∧
    (s.val .n % 2 = 0 → s.val .n ≠ 2 →
      exec .mrwit s = .next { s with
        phase := .idle, done := true, err := .ok, prime := false,
        r := 0, mrRounds := 0, doneIrq := true }) ∧
    (3 ≤ s.val .n → s.val .n % 2 = 1 → (s.val .a < 2 ∨ s.val .n - 2 < s.val .a) →
      exec .mrwit s = .next { s with
        phase := .idle, done := true, err := .invalidArgument, prime := false,
        r := 0, mrRounds := 0, doneIrq := true }) ∧
    (3 ≤ s.val .n → s.val .n % 2 = 1 → 2 ≤ s.val .a → s.val .a ≤ s.val .n - 2 →
      (passesRound (s.val .n) (s.val .a) →
        exec .mrwit s = .next { s with
          phase := .idle, done := true, err := .ok, prime := true,
          r := s.val .a, mrRounds := 1, doneIrq := true }) ∧
      (¬ passesRound (s.val .n) (s.val .a) →
        exec .mrwit s = .next { s with
          phase := .idle, done := true, err := .ok, prime := false,
          r := s.val .a, mrRounds := 1, doneIrq := true }))

/-! ## What the results mean -/

/-- R155: for a prime of 5 or more the block's round answers PASS for every witness in [1, n-1], in both
forms. -/
def Obligations.PrimePassesEveryWitness : Prop :=
  ∀ (c : Config) (n a : Nat), n < 2 ^ c.opw → n.Prime → 5 ≤ n → 1 ≤ a → a ≤ n - 1 →
    mrRound c n (split n).1 (split n).2 a = true

/-- R153, R155: MRTEST on a prime of 5 or more that completes has PRIME = 1 and MR_ROUNDS = ITER,
whatever was drawn. -/
def Obligations.MrtestNeverRejectsAPrime : Prop :=
  ∀ s t : State, s.phase = .busy .mrtest → (s.val .n).Prime → 5 ≤ s.val .n →
    exec .mrtest s = .next t → t.phase = .idle →
    t.prime = true ∧ t.mrRounds = s.iter ∧ t.err = .ok

/-- R155: PRIME = 0 with ERR = OK after MRTEST or MRWIT means that N is 0 or has a proper divisor. -/
def Obligations.CompositeVerdictIsTrue : Prop :=
  ∀ (s t : State) (op : Op), (op = .mrtest ∨ op = .mrwit) → s.phase = .busy op →
    exec op.instr s = .next t → t.phase = .idle → t.err = .ok → t.prime = false →
    s.val .n = 0 ∨ ∃ d, 1 < d ∧ d < s.val .n ∧ d ∣ s.val .n

/-- R7, R131: the form changes no result: in two states that differ only in EXP_FORM, every command answers
two states that differ only in EXP_FORM. For a take this also says that the two have the same `wait` and
the same free R, where R7 lets the latency differ and R112 gives R no law: that equality is the model's
choice (logs 2, 3) and no rule's. -/
def Obligations.FormChangesNoResult : Prop :=
  ∀ (i : Instr) (s : State) (f : ExpForm),
    ∃ t, exec i s = .next t ∧ exec i (s.withForm f) = .next (t.withForm f)

/-- R93, R117: what a completion writes depends only on the command, the operands it reads (R92), and
for MRTEST the witnesses drawn: not on OPW, EXP_FORM, other registers, or the past. That a witness comes
from an answer by `drawWitness`, and that answer `i` serves round `i`, is the model's choice (log 4). -/
def Obligations.ResultsDependOnlyOnWhatIsRead : Prop :=
  ∀ (op : Op) (s t s' t' : State), s.phase = .busy op → t.phase = .busy op →
    (op ≠ .mrtest → s.val .a = t.val .a) → (op = .modexp → s.val .e = t.val .e) →
    s.val .n = t.val .n →
    (op = .mrtest → s.iter = t.iter ∧ ∀ i, i < s.iter.toNat →
      (s.draw i).map (drawWitness 2 (s.val .n - 2)) = (t.draw i).map (drawWitness 2 (s.val .n - 2))) →
    exec op.instr s = .next s' → exec op.instr t = .next t' → s'.phase = .idle →
    t'.phase = .idle ∧ s'.valR = t'.valR ∧ s'.err = t'.err ∧ s'.prime = t'.prime ∧
      s'.mrRounds = t'.mrRounds ∧ s'.done = t'.done ∧ s'.doneIrq = t'.doneIrq

/-! ## The bus -/

/-- R64: an access of another size, or not aligned, gets ERROR; a read returns 0; nothing changes, in
every phase. -/
def Obligations.BadAccessGetsErrorOnly : Prop :=
  ∀ (s : State) (size : Size) (off : Offset) (w : Word),
    (size ≠ .b32 ∨ off.toNat % 4 ≠ 0) →
    memRead size off s = { s with resp := some .readError } ∧
    (memRead size off s).lastData = 0 ∧
    memWrite size off w s = .next { s with resp := some .writeError }

/-- R65: reserved offsets, and words of a window at index OPW/32 or more, read 0 and ignore writes,
with OKAY and without WERR, BUSY or not. -/
def Obligations.ReservedPlacesReadZeroIgnoreWrites : Prop :=
  ∀ (s : State) (off : Offset) (w : Word), off.toNat % 4 = 0 →
    ((0x020 ≤ off.toNat ∧ off.toNat < 0x200) ∨ 0xA00 ≤ off.toNat ∨
      (0x200 ≤ off.toNat ∧ off.toNat < 0xA00 ∧ s.cfg.words ≤ off.toNat % 0x200 / 4)) →
    memRead .b32 off s = { s with resp := some (.readOkay 0) } ∧
    memWrite .b32 off w s = .next { s with resp := some .writeOkay }

/-- R66: writes to ID, PARAM, STATUS, MR_ROUNDS and every word of R are ignored with OKAY, without
WERR even while BUSY. -/
def Obligations.ReadOnlyPlacesIgnoreWrites : Prop :=
  ∀ (s : State) (off : Offset) (w : Word),
    (off.toNat = 0x000 ∨ off.toNat = 0x004 ∨ off.toNat = 0x00C ∨ off.toNat = 0x01C ∨
      (0x800 ≤ off.toNat ∧ off.toNat < 0xA00 ∧ off.toNat % 4 = 0)) →
    memWrite .b32 off w s = .next { s with resp := some .writeOkay }

/-- R67: while BUSY, writes to words of A, E and N, to ITER and to CMD are dropped and set WERR; writes
to CTRL and INTSTAT are not dropped; so no step that leaves the command running changes A, E, N or
ITER. -/
def Obligations.BusyWritesAreDropped : Prop :=
  (∀ (s : State) (w : Word), s.busy = true →
    (∀ (x : OperandReg) (i : Nat), i < s.cfg.words →
      memWrite .b32 (BitVec.ofNat 12 (x.offset + 4 * i)) w s =
        .next { s with resp := some .writeOkay, werr := true }) ∧
    memWrite .b32 offIter w s = .next { s with resp := some .writeOkay, werr := true } ∧
    memWrite .b32 offCmd w s = .next { s with resp := some .writeOkay, werr := true } ∧
    (w.getLsbD 2 = false →
      memWrite .b32 offCtrl w s =
        .next { s with resp := some .writeOkay, irqEn := w.getLsbD 0 }) ∧
    (w.getLsbD 2 = true →
      memWrite .b32 offCtrl w s = .next { s.blockReset with resp := some .writeOkay }) ∧
    memWrite .b32 offIntstat w s =
      .next { s with resp := some .writeOkay, doneIrq := s.doneIrq && !w.getLsbD 0 }) ∧
  ∀ (s t : State) (op op' : Op), s.phase = .busy op → t.phase = .busy op' → step s = .next t →
    op' = op ∧ t.a = s.a ∧ t.e = s.e ∧ t.n = s.n ∧ t.iter = s.iter

/-- R61, R68: what a read of each place of the map returns: the control registers by their offsets, then
word i of A, E, N and R at 0x200, 0x400, 0x600 and 0x800 + 4*i (the reserved places are
`ReservedPlacesReadZeroIgnoreWrites`; the fields of STATUS are `StatusRegisterLayouts`). While BUSY a word
of R is some value about which nothing is said, and STATUS shows BUSY, WERR and nothing else. The last
clause needs the run invariant, since STATUS of a busy engine is clear only in states of a run. -/
def Obligations.ReadsReturnTheCurrentValue : Prop :=
  (∀ (s : State) (off : Offset), off.toNat % 4 = 0 →
    (s.busy = false ∨ ∀ i, locate s.cfg off ≠ .result i) →
    memRead .b32 off s = { s with resp := some (.readOkay (s.peek (locate s.cfg off))) }) ∧
  (∀ s : State,
    memRead .b32 0x000 s = { s with resp := some (.readOkay 0x4E540001) } ∧
    memRead .b32 0x004 s = { s with resp := some (.readOkay
      (BitVec.ofNat 32 (s.cfg.opw + if s.cfg.expForm = .montgomery then 2 ^ 16 else 0))) } ∧
    memRead .b32 0x008 s = { s with resp := some (.readOkay s.cmdLast) } ∧
    memRead .b32 0x00C s = { s with resp := some (.readOkay s.statusWord) } ∧
    memRead .b32 0x010 s = { s with resp := some (.readOkay (if s.irqEn then 1 else 0)) } ∧
    memRead .b32 0x014 s = { s with resp := some (.readOkay (if s.doneIrq then 1 else 0)) } ∧
    memRead .b32 0x018 s = { s with resp := some (.readOkay (s.iter.setWidth 32)) } ∧
    memRead .b32 0x01C s = { s with resp := some (.readOkay (s.mrRounds.setWidth 32)) }) ∧
  (∀ (s : State) (i : Nat), i < s.cfg.words →
    memRead .b32 (BitVec.ofNat 12 (0x200 + 4 * i)) s =
      { s with resp := some (.readOkay (BitVec.ofNat 32 (s.val .a / 2 ^ (32 * i)))) } ∧
    memRead .b32 (BitVec.ofNat 12 (0x400 + 4 * i)) s =
      { s with resp := some (.readOkay (BitVec.ofNat 32 (s.val .e / 2 ^ (32 * i)))) } ∧
    memRead .b32 (BitVec.ofNat 12 (0x600 + 4 * i)) s =
      { s with resp := some (.readOkay (BitVec.ofNat 32 (s.val .n / 2 ^ (32 * i)))) } ∧
    (s.busy = false →
      memRead .b32 (BitVec.ofNat 12 (0x800 + 4 * i)) s =
        { s with resp := some (.readOkay (BitVec.ofNat 32 (s.valR / 2 ^ (32 * i)))) }) ∧
    (s.busy = true →
      ∃ w f, memRead .b32 (BitVec.ofNat 12 (0x800 + 4 * i)) s =
        { s with resp := some (.readOkay w), freeCount := f })) ∧
  ∀ s : State, s.Inv → s.busy = true →
    memRead .b32 0x00C s =
      { s with resp := some (.readOkay (if s.werr then 0x00000005 else 0x00000001)) }

/-- R69: no read changes any register, and a read made twice returns the same, but for R while BUSY. -/
def Obligations.ReadsHaveNoSideEffect : Prop :=
  ∀ (s : State) (size : Size) (off : Offset),
    (∃ p f, memRead size off s = { s with resp := some p, freeCount := f }) ∧
    ((s.busy = false ∨ ∀ i, locate s.cfg off ≠ .result i) →
      memRead size off (memRead size off s) = memRead size off s)

/-- R61, R62: a write of word i of A, E or N on an idle engine puts that word there, and leaves every
other word, operand and register as it was. -/
def Obligations.OperandWordIsWritten : Prop :=
  ∀ (s : State) (x : OperandReg) (i : Nat) (w : Word), s.phase = .idle → i < s.cfg.words →
    ∃ v, memWrite .b32 (BitVec.ofNat 12 (x.offset + 4 * i)) w s =
        .next (State.setRaw { s with resp := some .writeOkay } v x) ∧
      v < 2 ^ s.cfg.opw ∧ wordAt v i = w ∧
      ∀ j, j < s.cfg.words → j ≠ i → wordAt v j = wordAt (s.val x) j

/-- R13, R62, R63: an operand is the sum of its words, below 2^OPW, and byte 4*k + j of its window is
byte j of word k. -/
def Obligations.OperandIsTheSumOfItsWords : Prop :=
  ∀ (s : State) (x : OperandReg),
    s.val x = sumWords (s.raw x) s.cfg.words ∧ s.val x < 2 ^ s.cfg.opw ∧
    s.valR = sumWords s.r s.cfg.words ∧ s.valR < 2 ^ s.cfg.opw ∧
    ∀ k j, j < 4 → byteAt (s.val x) (4 * k + j) = (wordAt (s.val x) k).extractLsb' (8 * j) 8

/-- R32, R33, R34: the writable control registers. Reserved bits of a write are ignored. -/
def Obligations.ControlRegisterWrites : Prop :=
  ∀ (s : State) (w : Word),
    (w.getLsbD 2 = false →
      memWrite .b32 offCtrl w s =
        .next { s with resp := some .writeOkay, irqEn := w.getLsbD 0 }) ∧
    memWrite .b32 offIntstat w s =
      .next { s with resp := some .writeOkay, doneIrq := s.doneIrq && !w.getLsbD 0 } ∧
    (s.phase = .idle →
      memWrite .b32 offIter w s =
        .next { s with resp := some .writeOkay, iter := w.setWidth 16 })

/-- R23, R24: ID, and PARAM with OPW and EXP_FORM. -/
def Obligations.IdAndParamAreConstants : Prop :=
  ∀ s : State, s.peek .id = 0x4E540001 ∧
    ((s.peek .param).extractLsb' 0 16).toNat = s.cfg.opw ∧
    ((s.peek .param).getLsbD 16 = true ↔ s.cfg.expForm = .montgomery) ∧
    (s.peek .param).extractLsb' 17 15 = 0

/-- R26, R27, R31 to R35: the fields of STATUS, CTRL, INTSTAT, ITER and MR_ROUNDS as read. -/
def Obligations.StatusRegisterLayouts : Prop :=
  ∀ s : State,
    ((s.statusWord.getLsbD 0 = true ↔ ∃ op, s.phase = .busy op) ∧
      s.statusWord.getLsbD 1 = s.done ∧ s.statusWord.getLsbD 2 = s.werr ∧
      s.statusWord.getLsbD 3 = s.prime ∧ s.statusWord.extractLsb' 4 4 = 0 ∧
      (s.statusWord.extractLsb' 8 4 = 0 ↔ s.err = .ok) ∧
      (s.statusWord.extractLsb' 8 4 = 1 ↔ s.err = .illegalCmd) ∧
      (s.statusWord.extractLsb' 8 4 = 2 ↔ s.err = .invalidArgument) ∧
      (s.statusWord.extractLsb' 8 4 = 3 ↔ s.err = .noInverse) ∧
      s.statusWord.extractLsb' 12 20 = 0) ∧
    (s.ctrlWord.getLsbD 0 = s.irqEn ∧ s.ctrlWord.extractLsb' 1 31 = 0) ∧
    (s.intstatWord.getLsbD 0 = s.doneIrq ∧ s.intstatWord.extractLsb' 1 31 = 0) ∧
    (s.iterWord.extractLsb' 0 16 = s.iter ∧ s.iterWord.extractLsb' 16 16 = 0) ∧
    (s.roundsWord.extractLsb' 0 16 = s.mrRounds ∧ s.roundsWord.extractLsb' 16 16 = 0)

/-- R8, R60: the window is the 4 KiB at BASE, and a raw access outside it does not reach the block. That
such a read leaves the port's last answer `resp` as it was is the model's choice (log 10). -/
def Obligations.WindowIsPlacedAtBase : Prop :=
  (∀ (c : Config) (off : Offset), offsetOf c (c.base + off.toNat) = some off) ∧
  (∀ (c : Config) (addr : Nat), addr < c.base ∨ c.base + 0x1000 ≤ addr → offsetOf c addr = none) ∧
  ∀ (s : State) (addr : Nat) (size : Size) (w : Word),
    addr < s.cfg.base ∨ s.cfg.base + 0x1000 ≤ addr →
    hostOp (.busRead addr size) s = .next s ∧ hostOp (.busWrite addr size w) s = .next s

/-! ## Rules about every step -/

/-- R174, R175: irq is IRQ_EN and DONE_IRQ; every step that ends a command by a completion, whatever
its error, leaves DONE_IRQ = 1; a take of a computing command does not clear it (R175, R202, which the
model follows where R178 reads otherwise: log 12). -/
def Obligations.InterruptLineFollowsCompletion : Prop :=
  (∀ s : State, s.irq = (s.ctrlWord.getLsbD 0 && s.intstatWord.getLsbD 0)) ∧
  (∀ s t : State, step s = .next t → s.busy = true → t.busy = false → t.done = true →
    t.doneIrq = true ∧ t.irq = t.irqEn) ∧
  ∀ s t : State, step s = .next t → s.busy = false → t.busy = true → t.doneIrq = s.doneIrq

/-- R36, R110 to R116, R118: every step is one of five. It keeps the phase and all results; or it is the
host's CMD write of a computing command on an idle engine, its take, which clears DONE, PRIME, ERR and
WERR; or it is the completion of the running command, with what `exec` of it writes; or it is the host's
CMD write of NOP or of an illegal word on an idle engine, which keeps R and MR_ROUNDS; or it is a reset. -/
def Obligations.OnlyCompletionsWriteResults : Prop :=
  ∀ s t : State, step s = .next t →
    (t.phase = s.phase ∧ t.r = s.r ∧ t.done = s.done ∧ t.prime = s.prime ∧ t.err = s.err ∧
      t.mrRounds = s.mrRounds) ∨
    (s.phase = .idle ∧ (∃ op, s.hostWrites offCmd (encode op.instr) ∧ t.phase = .busy op ∧
        t.cmdLast = encode op.instr) ∧
      t.done = false ∧ t.prime = false ∧ t.err = .ok ∧ t.werr = false ∧
      t.mrRounds = s.mrRounds ∧ t.doneIrq = s.doneIrq ∧
      t.a = s.a ∧ t.e = s.e ∧ t.n = s.n ∧ t.iter = s.iter ∧ t.irqEn = s.irqEn) ∨
    ((∃ op, s.phase = .busy op ∧ exec op.instr s.tick = .next t) ∧
      t.phase = .idle ∧ t.done = true ∧ t.doneIrq = true ∧ t.cmdLast = s.cmdLast ∧ t.werr = s.werr ∧
      t.a = s.a ∧ t.e = s.e ∧ t.n = s.n ∧ t.iter = s.iter ∧ t.irqEn = s.irqEn) ∨
    (s.phase = .idle ∧ (∃ w, s.hostWrites offCmd w ∧ t.cmdLast = w ∧
        (w = encode .nop ∧ t.err = .ok ∨ (∃ why, decode w = .error why) ∧ t.err = .illegalCmd)) ∧
      t.phase = .idle ∧ t.done = true ∧ t.doneIrq = true ∧ t.prime = false ∧ t.werr = false ∧
      t.r = s.r ∧ t.mrRounds = s.mrRounds ∧
      t.a = s.a ∧ t.e = s.e ∧ t.n = s.n ∧ t.iter = s.iter ∧ t.irqEn = s.irqEn) ∨
    (s.resets ∧ t.phase = .idle ∧ t.a = 0 ∧ t.e = 0 ∧ t.n = 0 ∧ t.r = 0 ∧ t.cmdLast = 0 ∧
      t.statusWord = 0 ∧ t.ctrlWord = 0 ∧ t.intstatWord = 0 ∧ t.iter = 40 ∧ t.mrRounds = 0)

/-- R118, R175: DONE_IRQ stays 1 until the host writes 1 to bit 0 of INTSTAT, or a reset. -/
def Obligations.PendingInterruptIsKept : Prop :=
  ∀ s t : State, step s = .next t → s.doneIrq = true → t.doneIrq = false →
    s.resets ∨ ∃ w, w.getLsbD 0 = true ∧ s.hostWrites offIntstat w

/-- R29, R67, R110: a step that sets WERR is the host's write to CMD, to ITER or to a word of A, E or N while
BUSY, and it changes nothing else of the block; a step that clears WERR is a take, that is the host's
CMD write on an idle engine, which makes its word CMD_LAST and keeps the operands and ITER, or a reset. -/
def Obligations.WriteErrorIsSticky : Prop :=
  ∀ s t : State, step s = .next t →
    (s.werr = false → t.werr = true →
      s.busy = true ∧
      (∃ off w, s.hostWrites off w ∧ (off = offCmd ∨ off = offIter ∨
        ∃ (x : OperandReg) (i : Nat), i < s.cfg.words ∧ off = BitVec.ofNat 12 (x.offset + 4 * i))) ∧
      t = { s.tick.advance with resp := some .writeOkay, werr := true }) ∧
    (s.werr = true → t.werr = false →
      (s.phase = .idle ∧ t.a = s.a ∧ t.e = s.e ∧ t.n = s.n ∧ t.iter = s.iter ∧
        t.mrRounds = s.mrRounds ∧ t.prime = false ∧
        ∃ w, s.hostWrites offCmd w ∧ t.cmdLast = w ∧
          ((∃ op : Op, w = encode op.instr ∧ t.phase = .busy op ∧ t.done = false ∧ t.err = .ok ∧
              t.doneIrq = s.doneIrq) ∨
            (t.phase = .idle ∧ t.done = true ∧ t.doneIrq = true ∧ t.r = s.r ∧
              (w = encode .nop ∧ t.err = .ok ∨
                (∃ why, decode w = .error why) ∧ t.err = .illegalCmd)))) ∨
      (s.resets ∧ t.phase = .idle ∧ t.done = false ∧ t.cmdLast = 0))

/-- R156, R204: a running command leaves BUSY within `wait + 1` steps when rst_n stays high, and for MRTEST
when the entropy source is live or the answers that are ready are enough; `wait` may be any number
(log 3). -/
def Obligations.RunningCommandEnds : Prop :=
  ∀ (s : State) (op : Op), s.phase = .busy op → s.rstN = [] →
    (op = .mrtest → s.cfg.entropyLive = true ∨ s.waitsForEntropy = false) →
    ∃ k t, k ≤ s.wait + 1 ∧ Sys2Proof.core.run k s = .next t ∧ State.phase t = .idle

/-- R206: from a final state, with rst_n high, a step changes nothing of the block or of the host. That a host
stuck at a line it cannot execute has stopped is the model's choice (log 6). -/
def Obligations.FinalStateIsKept : Prop :=
  ∀ s t : State, s.final → s.rstN.head? ≠ some false → step s = .next t →
    t = { s with rstN := s.rstN.tail } ∧ t.final

/-- R9, R152, R190: an MRTEST that waits on a silent source stays BUSY and waits on, whatever the host
does; only a reset ends it. A silent source with no answer ready makes one wait. -/
def Obligations.SilentEntropyHangsUntilReset : Prop :=
  (∀ s : State, s.phase = .busy .mrtest → s.cfg.entropyLive = false → s.entropy = [] →
    5 ≤ s.val .n → s.val .n % 2 = 1 → s.iter ≠ 0 → s.waitsForEntropy = true) ∧
  ∀ s t : State, s.waitsForEntropy = true → step s = .next t →
    (t.waitsForEntropy = true ∧ t.done = s.done ∧ t.val .n = s.val .n ∧ t.iter = s.iter) ∨
    (t.phase = .idle ∧ t.done = false ∧ t.doneIrq = false ∧ t.val .n = 0 ∧ t.iter = 40)

/-! ## Host programs -/

/-- R99: LDOP on an idle engine leaves the value in the operand register, in OPW/32 steps, and changes
no other register. -/
def Obligations.LdopLoadsTheValue : Prop :=
  ∀ (s : State) (x : OperandReg) (v : Nat) (pre post : List HostOp),
    s.phase = .idle → s.rstN = [] → v < 2 ^ s.cfg.opw →
    s.host.prog = pre ++ Pseudo.ldop s.cfg x v ++ post → s.host.pc = pre.length →
    ∃ t : State, Sys2Proof.core.run s.cfg.words s = .next t ∧
      t.val x = v ∧ (∀ y, y ≠ x → t.val y = s.val y) ∧ t.valR = s.valR ∧
      t.phase = .idle ∧ t.cmdLast = s.cmdLast ∧ t.statusWord = s.statusWord ∧
      t.ctrlWord = s.ctrlWord ∧ t.intstatWord = s.intstatWord ∧ t.iter = s.iter ∧
      t.mrRounds = s.mrRounds ∧ t.host.pc = pre.length + s.cfg.words

/-- R99: LDOP0 with an immediate or with a temporary that holds a 32-bit word, on an idle engine and an operand
register below 2^32, leaves that word as the operand's value in one step, and changes no other register. -/
def Obligations.Ldop0LoadsTheValue : Prop :=
  ∀ (s : State) (x : OperandReg) (src : Src) (pre post : List HostOp),
    s.phase = .idle → s.rstN.head? ≠ some false → s.val x < 2 ^ 32 →
    (∀ k, src = .temp k → 0 ≤ tempGet s.host.temps k ∧ tempGet s.host.temps k < 2 ^ 32) →
    s.host.prog = pre ++ Pseudo.ldop0 x src ++ post → s.host.pc = pre.length →
    ∃ t v, step s = .next t ∧
      (∀ w, src = .imm w → v = (w.toNat : Int)) ∧ (∀ k, src = .temp k → v = tempGet s.host.temps k) ∧
      (t.val x : Int) = v ∧ (∀ y, y ≠ x → t.val y = s.val y) ∧ t.valR = s.valR ∧
      t.phase = .idle ∧ t.cmdLast = s.cmdLast ∧ t.statusWord = s.statusWord ∧
      t.ctrlWord = s.ctrlWord ∧ t.intstatWord = s.intstatWord ∧ t.iter = s.iter ∧
      t.mrRounds = s.mrRounds ∧ t.host.pc = s.host.pc + 1

/-- R98: RD puts the word read in its temporary and leaves the other temporaries, for temporaries in
their canonical form, which every step keeps (the run invariant). -/
def Obligations.HostReadFillsItsTemporary : Prop :=
  ∀ (s : State) (off : Offset) (k : Temp), s.rstN.head? ≠ some false →
    s.tick.engineTurn = false → s.host.next = some (.rd off k) → tempsWf s.host.temps = true →
    ∃ t, step s = .next t ∧ t.host.pc = s.host.pc + 1 ∧
      tempGet t.host.temps k = ((memRead .b32 off s).lastData.toNat : Int) ∧
      ∀ u, u ≠ k → tempGet t.host.temps u = tempGet s.host.temps u

/-- R98: BNZ and BZ go to their label, or to the next line, and touch no register. `t AND mask` is not 0 when
some bit is set in both; the bits of a negative temporary are those of its two's complement, which is
the model's choice (log 6). -/
def Obligations.HostBranchesFollowTheirTest : Prop :=
  ∀ (s : State) (k : Temp) (mask : Nat) (l : Label) (p : Nat), s.rstN.head? ≠ some false →
    s.tick.engineTurn = false → labelPos s.host.prog l = some p →
    (s.host.next = some (.bnz k mask l) →
      ((∃ i, (tempGet s.host.temps k).testBit i = true ∧ mask.testBit i = true) →
        step s = .next { s with
          rstN := s.rstN.tail, wait := s.wait - 1, host := { s.host with pc := p } }) ∧
      ((¬ ∃ i, (tempGet s.host.temps k).testBit i = true ∧ mask.testBit i = true) →
        step s = .next { s with
          rstN := s.rstN.tail, wait := s.wait - 1, host := { s.host with pc := s.host.pc + 1 } })) ∧
    (s.host.next = some (.bz k mask l) →
      ((∃ i, (tempGet s.host.temps k).testBit i = true ∧ mask.testBit i = true) →
        step s = .next { s with
          rstN := s.rstN.tail, wait := s.wait - 1, host := { s.host with pc := s.host.pc + 1 } }) ∧
      ((¬ ∃ i, (tempGet s.host.temps k).testBit i = true ∧ mask.testBit i = true) →
        step s = .next { s with
          rstN := s.rstN.tail, wait := s.wait - 1, host := { s.host with pc := p } }))
end

