-- ==== Sys2Proof/Laws/State.lean ====
section
/-! SUPPORT. One lemma per field per update of State, each true by rfl, so that no proof unfolds a
record update. -/

namespace Sys2Proof.Machine

@[simp] theorem takeFirst_cfg (w : Word) (s : State) :
    (State.takeFirst w s).cfg = s.cfg := rfl
@[simp] theorem takeFirst_a (w : Word) (s : State) :
    (State.takeFirst w s).a = s.a := rfl
@[simp] theorem takeFirst_e (w : Word) (s : State) :
    (State.takeFirst w s).e = s.e := rfl
@[simp] theorem takeFirst_n (w : Word) (s : State) :
    (State.takeFirst w s).n = s.n := rfl
@[simp] theorem takeFirst_r (w : Word) (s : State) :
    (State.takeFirst w s).r = s.r := rfl
@[simp] theorem takeFirst_cmdLast (w : Word) (s : State) :
    (State.takeFirst w s).cmdLast = w := rfl
@[simp] theorem takeFirst_phase (w : Word) (s : State) :
    (State.takeFirst w s).phase = s.phase := rfl
@[simp] theorem takeFirst_done (w : Word) (s : State) :
    (State.takeFirst w s).done = s.done := rfl
@[simp] theorem takeFirst_werr (w : Word) (s : State) :
    (State.takeFirst w s).werr = false := rfl
@[simp] theorem takeFirst_prime (w : Word) (s : State) :
    (State.takeFirst w s).prime = s.prime := rfl
@[simp] theorem takeFirst_err (w : Word) (s : State) :
    (State.takeFirst w s).err = s.err := rfl
@[simp] theorem takeFirst_irqEn (w : Word) (s : State) :
    (State.takeFirst w s).irqEn = s.irqEn := rfl
@[simp] theorem takeFirst_doneIrq (w : Word) (s : State) :
    (State.takeFirst w s).doneIrq = s.doneIrq := rfl
@[simp] theorem takeFirst_iter (w : Word) (s : State) :
    (State.takeFirst w s).iter = s.iter := rfl
@[simp] theorem takeFirst_mrRounds (w : Word) (s : State) :
    (State.takeFirst w s).mrRounds = s.mrRounds := rfl
@[simp] theorem takeFirst_wait (w : Word) (s : State) :
    (State.takeFirst w s).wait = s.wait := rfl
@[simp] theorem takeFirst_entropy (w : Word) (s : State) :
    (State.takeFirst w s).entropy = s.entropy := rfl
@[simp] theorem takeFirst_freeCount (w : Word) (s : State) :
    (State.takeFirst w s).freeCount = s.freeCount := rfl
@[simp] theorem takeFirst_rstN (w : Word) (s : State) :
    (State.takeFirst w s).rstN = s.rstN := rfl
@[simp] theorem takeFirst_resp (w : Word) (s : State) :
    (State.takeFirst w s).resp = s.resp := rfl
@[simp] theorem takeFirst_host (w : Word) (s : State) :
    (State.takeFirst w s).host = s.host := rfl

@[simp] theorem startCommand_cfg (op : Op) (s : State) :
    (State.startCommand op s).cfg = s.cfg := rfl
@[simp] theorem startCommand_a (op : Op) (s : State) :
    (State.startCommand op s).a = s.a := rfl
@[simp] theorem startCommand_e (op : Op) (s : State) :
    (State.startCommand op s).e = s.e := rfl
@[simp] theorem startCommand_n (op : Op) (s : State) :
    (State.startCommand op s).n = s.n := rfl
@[simp] theorem startCommand_r (op : Op) (s : State) :
    (State.startCommand op s).r = Config.unspecOperand s.freeCount % 2 ^ s.cfg.opw := rfl
@[simp] theorem startCommand_cmdLast (op : Op) (s : State) :
    (State.startCommand op s).cmdLast = s.cmdLast := rfl
@[simp] theorem startCommand_phase (op : Op) (s : State) :
    (State.startCommand op s).phase = .busy op := rfl
@[simp] theorem startCommand_done (op : Op) (s : State) :
    (State.startCommand op s).done = false := rfl
@[simp] theorem startCommand_werr (op : Op) (s : State) :
    (State.startCommand op s).werr = s.werr := rfl
@[simp] theorem startCommand_prime (op : Op) (s : State) :
    (State.startCommand op s).prime = false := rfl
@[simp] theorem startCommand_err (op : Op) (s : State) :
    (State.startCommand op s).err = .ok := rfl
@[simp] theorem startCommand_irqEn (op : Op) (s : State) :
    (State.startCommand op s).irqEn = s.irqEn := rfl
@[simp] theorem startCommand_doneIrq (op : Op) (s : State) :
    (State.startCommand op s).doneIrq = s.doneIrq := rfl
@[simp] theorem startCommand_iter (op : Op) (s : State) :
    (State.startCommand op s).iter = s.iter := rfl
@[simp] theorem startCommand_mrRounds (op : Op) (s : State) :
    (State.startCommand op s).mrRounds = s.mrRounds := rfl
@[simp] theorem startCommand_wait (op : Op) (s : State) :
    (State.startCommand op s).wait = Config.latency s.freeCount := rfl
@[simp] theorem startCommand_entropy (op : Op) (s : State) :
    (State.startCommand op s).entropy = s.entropy := rfl
@[simp] theorem startCommand_freeCount (op : Op) (s : State) :
    (State.startCommand op s).freeCount = s.freeCount + 1 := rfl
@[simp] theorem startCommand_rstN (op : Op) (s : State) :
    (State.startCommand op s).rstN = s.rstN := rfl
@[simp] theorem startCommand_resp (op : Op) (s : State) :
    (State.startCommand op s).resp = s.resp := rfl
@[simp] theorem startCommand_host (op : Op) (s : State) :
    (State.startCommand op s).host = s.host := rfl

@[simp] theorem complete_cfg (c : Completion) (s : State) :
    (State.complete c s).cfg = s.cfg := rfl
@[simp] theorem complete_a (c : Completion) (s : State) :
    (State.complete c s).a = s.a := rfl
@[simp] theorem complete_e (c : Completion) (s : State) :
    (State.complete c s).e = s.e := rfl
@[simp] theorem complete_n (c : Completion) (s : State) :
    (State.complete c s).n = s.n := rfl
@[simp] theorem complete_cmdLast (c : Completion) (s : State) :
    (State.complete c s).cmdLast = s.cmdLast := rfl
@[simp] theorem complete_phase (c : Completion) (s : State) :
    (State.complete c s).phase = .idle := rfl
@[simp] theorem complete_done (c : Completion) (s : State) :
    (State.complete c s).done = true := rfl
@[simp] theorem complete_werr (c : Completion) (s : State) :
    (State.complete c s).werr = s.werr := rfl
@[simp] theorem complete_prime (c : Completion) (s : State) :
    (State.complete c s).prime = c.prime := rfl
@[simp] theorem complete_err (c : Completion) (s : State) :
    (State.complete c s).err = c.err := rfl
@[simp] theorem complete_irqEn (c : Completion) (s : State) :
    (State.complete c s).irqEn = s.irqEn := rfl
@[simp] theorem complete_doneIrq (c : Completion) (s : State) :
    (State.complete c s).doneIrq = true := rfl
@[simp] theorem complete_iter (c : Completion) (s : State) :
    (State.complete c s).iter = s.iter := rfl
@[simp] theorem complete_wait (c : Completion) (s : State) :
    (State.complete c s).wait = s.wait := rfl
@[simp] theorem complete_entropy (c : Completion) (s : State) :
    (State.complete c s).entropy = s.entropy := rfl
@[simp] theorem complete_freeCount (c : Completion) (s : State) :
    (State.complete c s).freeCount = s.freeCount := rfl
@[simp] theorem complete_rstN (c : Completion) (s : State) :
    (State.complete c s).rstN = s.rstN := rfl
@[simp] theorem complete_resp (c : Completion) (s : State) :
    (State.complete c s).resp = s.resp := rfl
@[simp] theorem complete_host (c : Completion) (s : State) :
    (State.complete c s).host = s.host := rfl

@[simp] theorem dropWrite_cfg (s : State) :
    (State.dropWrite s).cfg = s.cfg := rfl
@[simp] theorem dropWrite_a (s : State) :
    (State.dropWrite s).a = s.a := rfl
@[simp] theorem dropWrite_e (s : State) :
    (State.dropWrite s).e = s.e := rfl
@[simp] theorem dropWrite_n (s : State) :
    (State.dropWrite s).n = s.n := rfl
@[simp] theorem dropWrite_r (s : State) :
    (State.dropWrite s).r = s.r := rfl
@[simp] theorem dropWrite_cmdLast (s : State) :
    (State.dropWrite s).cmdLast = s.cmdLast := rfl
@[simp] theorem dropWrite_phase (s : State) :
    (State.dropWrite s).phase = s.phase := rfl
@[simp] theorem dropWrite_done (s : State) :
    (State.dropWrite s).done = s.done := rfl
@[simp] theorem dropWrite_werr (s : State) :
    (State.dropWrite s).werr = true := rfl
@[simp] theorem dropWrite_prime (s : State) :
    (State.dropWrite s).prime = s.prime := rfl
@[simp] theorem dropWrite_err (s : State) :
    (State.dropWrite s).err = s.err := rfl
@[simp] theorem dropWrite_irqEn (s : State) :
    (State.dropWrite s).irqEn = s.irqEn := rfl
@[simp] theorem dropWrite_doneIrq (s : State) :
    (State.dropWrite s).doneIrq = s.doneIrq := rfl
@[simp] theorem dropWrite_iter (s : State) :
    (State.dropWrite s).iter = s.iter := rfl
@[simp] theorem dropWrite_mrRounds (s : State) :
    (State.dropWrite s).mrRounds = s.mrRounds := rfl
@[simp] theorem dropWrite_wait (s : State) :
    (State.dropWrite s).wait = s.wait := rfl
@[simp] theorem dropWrite_entropy (s : State) :
    (State.dropWrite s).entropy = s.entropy := rfl
@[simp] theorem dropWrite_freeCount (s : State) :
    (State.dropWrite s).freeCount = s.freeCount := rfl
@[simp] theorem dropWrite_rstN (s : State) :
    (State.dropWrite s).rstN = s.rstN := rfl
@[simp] theorem dropWrite_resp (s : State) :
    (State.dropWrite s).resp = s.resp := rfl
@[simp] theorem dropWrite_host (s : State) :
    (State.dropWrite s).host = s.host := rfl

@[simp] theorem blockReset_cfg (s : State) :
    (State.blockReset s).cfg = s.cfg := rfl
@[simp] theorem blockReset_a (s : State) :
    (State.blockReset s).a = 0 := rfl
@[simp] theorem blockReset_e (s : State) :
    (State.blockReset s).e = 0 := rfl
@[simp] theorem blockReset_n (s : State) :
    (State.blockReset s).n = 0 := rfl
@[simp] theorem blockReset_r (s : State) :
    (State.blockReset s).r = 0 := rfl
@[simp] theorem blockReset_cmdLast (s : State) :
    (State.blockReset s).cmdLast = 0x00000000 := rfl
@[simp] theorem blockReset_phase (s : State) :
    (State.blockReset s).phase = .idle := rfl
@[simp] theorem blockReset_done (s : State) :
    (State.blockReset s).done = false := rfl
@[simp] theorem blockReset_werr (s : State) :
    (State.blockReset s).werr = false := rfl
@[simp] theorem blockReset_prime (s : State) :
    (State.blockReset s).prime = false := rfl
@[simp] theorem blockReset_err (s : State) :
    (State.blockReset s).err = .ok := rfl
@[simp] theorem blockReset_irqEn (s : State) :
    (State.blockReset s).irqEn = false := rfl
@[simp] theorem blockReset_doneIrq (s : State) :
    (State.blockReset s).doneIrq = false := rfl
@[simp] theorem blockReset_iter (s : State) :
    (State.blockReset s).iter = 0x0028 := rfl
@[simp] theorem blockReset_mrRounds (s : State) :
    (State.blockReset s).mrRounds = 0 := rfl
@[simp] theorem blockReset_wait (s : State) :
    (State.blockReset s).wait = 0 := rfl
@[simp] theorem blockReset_entropy (s : State) :
    (State.blockReset s).entropy = s.entropy := rfl
@[simp] theorem blockReset_freeCount (s : State) :
    (State.blockReset s).freeCount = s.freeCount := rfl
@[simp] theorem blockReset_rstN (s : State) :
    (State.blockReset s).rstN = s.rstN := rfl
@[simp] theorem blockReset_resp (s : State) :
    (State.blockReset s).resp = s.resp := rfl
@[simp] theorem blockReset_host (s : State) :
    (State.blockReset s).host = s.host := rfl

@[simp] theorem consumeDraws_cfg (k : Nat) (s : State) :
    (State.consumeDraws k s).cfg = s.cfg := rfl
@[simp] theorem consumeDraws_a (k : Nat) (s : State) :
    (State.consumeDraws k s).a = s.a := rfl
@[simp] theorem consumeDraws_e (k : Nat) (s : State) :
    (State.consumeDraws k s).e = s.e := rfl
@[simp] theorem consumeDraws_n (k : Nat) (s : State) :
    (State.consumeDraws k s).n = s.n := rfl
@[simp] theorem consumeDraws_r (k : Nat) (s : State) :
    (State.consumeDraws k s).r = s.r := rfl
@[simp] theorem consumeDraws_cmdLast (k : Nat) (s : State) :
    (State.consumeDraws k s).cmdLast = s.cmdLast := rfl
@[simp] theorem consumeDraws_phase (k : Nat) (s : State) :
    (State.consumeDraws k s).phase = s.phase := rfl
@[simp] theorem consumeDraws_done (k : Nat) (s : State) :
    (State.consumeDraws k s).done = s.done := rfl
@[simp] theorem consumeDraws_werr (k : Nat) (s : State) :
    (State.consumeDraws k s).werr = s.werr := rfl
@[simp] theorem consumeDraws_prime (k : Nat) (s : State) :
    (State.consumeDraws k s).prime = s.prime := rfl
@[simp] theorem consumeDraws_err (k : Nat) (s : State) :
    (State.consumeDraws k s).err = s.err := rfl
@[simp] theorem consumeDraws_irqEn (k : Nat) (s : State) :
    (State.consumeDraws k s).irqEn = s.irqEn := rfl
@[simp] theorem consumeDraws_doneIrq (k : Nat) (s : State) :
    (State.consumeDraws k s).doneIrq = s.doneIrq := rfl
@[simp] theorem consumeDraws_iter (k : Nat) (s : State) :
    (State.consumeDraws k s).iter = s.iter := rfl
@[simp] theorem consumeDraws_mrRounds (k : Nat) (s : State) :
    (State.consumeDraws k s).mrRounds = s.mrRounds := rfl
@[simp] theorem consumeDraws_wait (k : Nat) (s : State) :
    (State.consumeDraws k s).wait = s.wait := rfl
@[simp] theorem consumeDraws_entropy (k : Nat) (s : State) :
    (State.consumeDraws k s).entropy = s.entropy.drop k := rfl
@[simp] theorem consumeDraws_freeCount (k : Nat) (s : State) :
    (State.consumeDraws k s).freeCount = s.freeCount + (k - s.entropy.length) := rfl
@[simp] theorem consumeDraws_rstN (k : Nat) (s : State) :
    (State.consumeDraws k s).rstN = s.rstN := rfl
@[simp] theorem consumeDraws_resp (k : Nat) (s : State) :
    (State.consumeDraws k s).resp = s.resp := rfl
@[simp] theorem consumeDraws_host (k : Nat) (s : State) :
    (State.consumeDraws k s).host = s.host := rfl

@[simp] theorem respond_cfg (p : Response) (s : State) :
    (State.respond p s).cfg = s.cfg := rfl
@[simp] theorem respond_a (p : Response) (s : State) :
    (State.respond p s).a = s.a := rfl
@[simp] theorem respond_e (p : Response) (s : State) :
    (State.respond p s).e = s.e := rfl
@[simp] theorem respond_n (p : Response) (s : State) :
    (State.respond p s).n = s.n := rfl
@[simp] theorem respond_r (p : Response) (s : State) :
    (State.respond p s).r = s.r := rfl
@[simp] theorem respond_cmdLast (p : Response) (s : State) :
    (State.respond p s).cmdLast = s.cmdLast := rfl
@[simp] theorem respond_phase (p : Response) (s : State) :
    (State.respond p s).phase = s.phase := rfl
@[simp] theorem respond_done (p : Response) (s : State) :
    (State.respond p s).done = s.done := rfl
@[simp] theorem respond_werr (p : Response) (s : State) :
    (State.respond p s).werr = s.werr := rfl
@[simp] theorem respond_prime (p : Response) (s : State) :
    (State.respond p s).prime = s.prime := rfl
@[simp] theorem respond_err (p : Response) (s : State) :
    (State.respond p s).err = s.err := rfl
@[simp] theorem respond_irqEn (p : Response) (s : State) :
    (State.respond p s).irqEn = s.irqEn := rfl
@[simp] theorem respond_doneIrq (p : Response) (s : State) :
    (State.respond p s).doneIrq = s.doneIrq := rfl
@[simp] theorem respond_iter (p : Response) (s : State) :
    (State.respond p s).iter = s.iter := rfl
@[simp] theorem respond_mrRounds (p : Response) (s : State) :
    (State.respond p s).mrRounds = s.mrRounds := rfl
@[simp] theorem respond_wait (p : Response) (s : State) :
    (State.respond p s).wait = s.wait := rfl
@[simp] theorem respond_entropy (p : Response) (s : State) :
    (State.respond p s).entropy = s.entropy := rfl
@[simp] theorem respond_freeCount (p : Response) (s : State) :
    (State.respond p s).freeCount = s.freeCount := rfl
@[simp] theorem respond_rstN (p : Response) (s : State) :
    (State.respond p s).rstN = s.rstN := rfl
@[simp] theorem respond_resp (p : Response) (s : State) :
    (State.respond p s).resp = some p := rfl
@[simp] theorem respond_host (p : Response) (s : State) :
    (State.respond p s).host = s.host := rfl

@[simp] theorem writeIntstat_cfg (w : Word) (s : State) :
    (State.writeIntstat w s).cfg = s.cfg := rfl
@[simp] theorem writeIntstat_a (w : Word) (s : State) :
    (State.writeIntstat w s).a = s.a := rfl
@[simp] theorem writeIntstat_e (w : Word) (s : State) :
    (State.writeIntstat w s).e = s.e := rfl
@[simp] theorem writeIntstat_n (w : Word) (s : State) :
    (State.writeIntstat w s).n = s.n := rfl
@[simp] theorem writeIntstat_r (w : Word) (s : State) :
    (State.writeIntstat w s).r = s.r := rfl
@[simp] theorem writeIntstat_cmdLast (w : Word) (s : State) :
    (State.writeIntstat w s).cmdLast = s.cmdLast := rfl
@[simp] theorem writeIntstat_phase (w : Word) (s : State) :
    (State.writeIntstat w s).phase = s.phase := rfl
@[simp] theorem writeIntstat_done (w : Word) (s : State) :
    (State.writeIntstat w s).done = s.done := rfl
@[simp] theorem writeIntstat_werr (w : Word) (s : State) :
    (State.writeIntstat w s).werr = s.werr := rfl
@[simp] theorem writeIntstat_prime (w : Word) (s : State) :
    (State.writeIntstat w s).prime = s.prime := rfl
@[simp] theorem writeIntstat_err (w : Word) (s : State) :
    (State.writeIntstat w s).err = s.err := rfl
@[simp] theorem writeIntstat_irqEn (w : Word) (s : State) :
    (State.writeIntstat w s).irqEn = s.irqEn := rfl
@[simp] theorem writeIntstat_doneIrq (w : Word) (s : State) :
    (State.writeIntstat w s).doneIrq = (s.doneIrq && !intstatClear w) := rfl
@[simp] theorem writeIntstat_iter (w : Word) (s : State) :
    (State.writeIntstat w s).iter = s.iter := rfl
@[simp] theorem writeIntstat_mrRounds (w : Word) (s : State) :
    (State.writeIntstat w s).mrRounds = s.mrRounds := rfl
@[simp] theorem writeIntstat_wait (w : Word) (s : State) :
    (State.writeIntstat w s).wait = s.wait := rfl
@[simp] theorem writeIntstat_entropy (w : Word) (s : State) :
    (State.writeIntstat w s).entropy = s.entropy := rfl
@[simp] theorem writeIntstat_freeCount (w : Word) (s : State) :
    (State.writeIntstat w s).freeCount = s.freeCount := rfl
@[simp] theorem writeIntstat_rstN (w : Word) (s : State) :
    (State.writeIntstat w s).rstN = s.rstN := rfl
@[simp] theorem writeIntstat_resp (w : Word) (s : State) :
    (State.writeIntstat w s).resp = s.resp := rfl
@[simp] theorem writeIntstat_host (w : Word) (s : State) :
    (State.writeIntstat w s).host = s.host := rfl

@[simp] theorem tick_cfg (s : State) :
    (State.tick s).cfg = s.cfg := rfl
@[simp] theorem tick_a (s : State) :
    (State.tick s).a = s.a := rfl
@[simp] theorem tick_e (s : State) :
    (State.tick s).e = s.e := rfl
@[simp] theorem tick_n (s : State) :
    (State.tick s).n = s.n := rfl
@[simp] theorem tick_r (s : State) :
    (State.tick s).r = s.r := rfl
@[simp] theorem tick_cmdLast (s : State) :
    (State.tick s).cmdLast = s.cmdLast := rfl
@[simp] theorem tick_phase (s : State) :
    (State.tick s).phase = s.phase := rfl
@[simp] theorem tick_done (s : State) :
    (State.tick s).done = s.done := rfl
@[simp] theorem tick_werr (s : State) :
    (State.tick s).werr = s.werr := rfl
@[simp] theorem tick_prime (s : State) :
    (State.tick s).prime = s.prime := rfl
@[simp] theorem tick_err (s : State) :
    (State.tick s).err = s.err := rfl
@[simp] theorem tick_irqEn (s : State) :
    (State.tick s).irqEn = s.irqEn := rfl
@[simp] theorem tick_doneIrq (s : State) :
    (State.tick s).doneIrq = s.doneIrq := rfl
@[simp] theorem tick_iter (s : State) :
    (State.tick s).iter = s.iter := rfl
@[simp] theorem tick_mrRounds (s : State) :
    (State.tick s).mrRounds = s.mrRounds := rfl
@[simp] theorem tick_wait (s : State) :
    (State.tick s).wait = s.wait := rfl
@[simp] theorem tick_entropy (s : State) :
    (State.tick s).entropy = s.entropy := rfl
@[simp] theorem tick_freeCount (s : State) :
    (State.tick s).freeCount = s.freeCount := rfl
@[simp] theorem tick_rstN (s : State) :
    (State.tick s).rstN = s.rstN.tail := rfl
@[simp] theorem tick_resp (s : State) :
    (State.tick s).resp = s.resp := rfl
@[simp] theorem tick_host (s : State) :
    (State.tick s).host = s.host := rfl

@[simp] theorem advance_cfg (s : State) :
    (State.advance s).cfg = s.cfg := rfl
@[simp] theorem advance_a (s : State) :
    (State.advance s).a = s.a := rfl
@[simp] theorem advance_e (s : State) :
    (State.advance s).e = s.e := rfl
@[simp] theorem advance_n (s : State) :
    (State.advance s).n = s.n := rfl
@[simp] theorem advance_r (s : State) :
    (State.advance s).r = s.r := rfl
@[simp] theorem advance_cmdLast (s : State) :
    (State.advance s).cmdLast = s.cmdLast := rfl
@[simp] theorem advance_phase (s : State) :
    (State.advance s).phase = s.phase := rfl
@[simp] theorem advance_done (s : State) :
    (State.advance s).done = s.done := rfl
@[simp] theorem advance_werr (s : State) :
    (State.advance s).werr = s.werr := rfl
@[simp] theorem advance_prime (s : State) :
    (State.advance s).prime = s.prime := rfl
@[simp] theorem advance_err (s : State) :
    (State.advance s).err = s.err := rfl
@[simp] theorem advance_irqEn (s : State) :
    (State.advance s).irqEn = s.irqEn := rfl
@[simp] theorem advance_doneIrq (s : State) :
    (State.advance s).doneIrq = s.doneIrq := rfl
@[simp] theorem advance_iter (s : State) :
    (State.advance s).iter = s.iter := rfl
@[simp] theorem advance_mrRounds (s : State) :
    (State.advance s).mrRounds = s.mrRounds := rfl
@[simp] theorem advance_wait (s : State) :
    (State.advance s).wait = s.wait - 1 := rfl
@[simp] theorem advance_entropy (s : State) :
    (State.advance s).entropy = s.entropy := rfl
@[simp] theorem advance_freeCount (s : State) :
    (State.advance s).freeCount = s.freeCount := rfl
@[simp] theorem advance_rstN (s : State) :
    (State.advance s).rstN = s.rstN := rfl
@[simp] theorem advance_resp (s : State) :
    (State.advance s).resp = s.resp := rfl
@[simp] theorem advance_host (s : State) :
    (State.advance s).host = { s.host with pc := s.host.pc + 1 } := rfl

@[simp] theorem setTemp_cfg (t : Temp) (v : Int) (s : State) :
    (State.setTemp t v s).cfg = s.cfg := rfl
@[simp] theorem setTemp_a (t : Temp) (v : Int) (s : State) :
    (State.setTemp t v s).a = s.a := rfl
@[simp] theorem setTemp_e (t : Temp) (v : Int) (s : State) :
    (State.setTemp t v s).e = s.e := rfl
@[simp] theorem setTemp_n (t : Temp) (v : Int) (s : State) :
    (State.setTemp t v s).n = s.n := rfl
@[simp] theorem setTemp_r (t : Temp) (v : Int) (s : State) :
    (State.setTemp t v s).r = s.r := rfl
@[simp] theorem setTemp_cmdLast (t : Temp) (v : Int) (s : State) :
    (State.setTemp t v s).cmdLast = s.cmdLast := rfl
@[simp] theorem setTemp_phase (t : Temp) (v : Int) (s : State) :
    (State.setTemp t v s).phase = s.phase := rfl
@[simp] theorem setTemp_done (t : Temp) (v : Int) (s : State) :
    (State.setTemp t v s).done = s.done := rfl
@[simp] theorem setTemp_werr (t : Temp) (v : Int) (s : State) :
    (State.setTemp t v s).werr = s.werr := rfl
@[simp] theorem setTemp_prime (t : Temp) (v : Int) (s : State) :
    (State.setTemp t v s).prime = s.prime := rfl
@[simp] theorem setTemp_err (t : Temp) (v : Int) (s : State) :
    (State.setTemp t v s).err = s.err := rfl
@[simp] theorem setTemp_irqEn (t : Temp) (v : Int) (s : State) :
    (State.setTemp t v s).irqEn = s.irqEn := rfl
@[simp] theorem setTemp_doneIrq (t : Temp) (v : Int) (s : State) :
    (State.setTemp t v s).doneIrq = s.doneIrq := rfl
@[simp] theorem setTemp_iter (t : Temp) (v : Int) (s : State) :
    (State.setTemp t v s).iter = s.iter := rfl
@[simp] theorem setTemp_mrRounds (t : Temp) (v : Int) (s : State) :
    (State.setTemp t v s).mrRounds = s.mrRounds := rfl
@[simp] theorem setTemp_wait (t : Temp) (v : Int) (s : State) :
    (State.setTemp t v s).wait = s.wait := rfl
@[simp] theorem setTemp_entropy (t : Temp) (v : Int) (s : State) :
    (State.setTemp t v s).entropy = s.entropy := rfl
@[simp] theorem setTemp_freeCount (t : Temp) (v : Int) (s : State) :
    (State.setTemp t v s).freeCount = s.freeCount := rfl
@[simp] theorem setTemp_rstN (t : Temp) (v : Int) (s : State) :
    (State.setTemp t v s).rstN = s.rstN := rfl
@[simp] theorem setTemp_resp (t : Temp) (v : Int) (s : State) :
    (State.setTemp t v s).resp = s.resp := rfl
@[simp] theorem setTemp_host (t : Temp) (v : Int) (s : State) :
    (State.setTemp t v s).host = { s.host with temps := tempSet s.host.temps t v } := rfl

@[simp] theorem jump_cfg (l : Label) (s : State) :
    (State.jump l s).cfg = s.cfg := rfl
@[simp] theorem jump_a (l : Label) (s : State) :
    (State.jump l s).a = s.a := rfl
@[simp] theorem jump_e (l : Label) (s : State) :
    (State.jump l s).e = s.e := rfl
@[simp] theorem jump_n (l : Label) (s : State) :
    (State.jump l s).n = s.n := rfl
@[simp] theorem jump_r (l : Label) (s : State) :
    (State.jump l s).r = s.r := rfl
@[simp] theorem jump_cmdLast (l : Label) (s : State) :
    (State.jump l s).cmdLast = s.cmdLast := rfl
@[simp] theorem jump_phase (l : Label) (s : State) :
    (State.jump l s).phase = s.phase := rfl
@[simp] theorem jump_done (l : Label) (s : State) :
    (State.jump l s).done = s.done := rfl
@[simp] theorem jump_werr (l : Label) (s : State) :
    (State.jump l s).werr = s.werr := rfl
@[simp] theorem jump_prime (l : Label) (s : State) :
    (State.jump l s).prime = s.prime := rfl
@[simp] theorem jump_err (l : Label) (s : State) :
    (State.jump l s).err = s.err := rfl
@[simp] theorem jump_irqEn (l : Label) (s : State) :
    (State.jump l s).irqEn = s.irqEn := rfl
@[simp] theorem jump_doneIrq (l : Label) (s : State) :
    (State.jump l s).doneIrq = s.doneIrq := rfl
@[simp] theorem jump_iter (l : Label) (s : State) :
    (State.jump l s).iter = s.iter := rfl
@[simp] theorem jump_mrRounds (l : Label) (s : State) :
    (State.jump l s).mrRounds = s.mrRounds := rfl
@[simp] theorem jump_wait (l : Label) (s : State) :
    (State.jump l s).wait = s.wait := rfl
@[simp] theorem jump_entropy (l : Label) (s : State) :
    (State.jump l s).entropy = s.entropy := rfl
@[simp] theorem jump_freeCount (l : Label) (s : State) :
    (State.jump l s).freeCount = s.freeCount := rfl
@[simp] theorem jump_rstN (l : Label) (s : State) :
    (State.jump l s).rstN = s.rstN := rfl
@[simp] theorem jump_resp (l : Label) (s : State) :
    (State.jump l s).resp = s.resp := rfl
@[simp] theorem jump_host (l : Label) (s : State) :
    (State.jump l s).host = { s.host with pc := (labelPos s.host.prog l).getD s.host.pc } := rfl

@[simp] theorem complete_r_keep (e : ErrCode) (p : Bool) (k : Option Nat) (s : State) :
    (State.complete ⟨e, none, p, k⟩ s).r = s.r := rfl
@[simp] theorem complete_r_some (e : ErrCode) (v : Nat) (p : Bool) (k : Option Nat) (s : State) :
    (State.complete ⟨e, some v, p, k⟩ s).r = v % 2 ^ s.cfg.opw := rfl
@[simp] theorem complete_mrRounds_keep (e : ErrCode) (v : Option Nat) (p : Bool) (s : State) :
    (State.complete ⟨e, v, p, none⟩ s).mrRounds = s.mrRounds := rfl
@[simp] theorem complete_mrRounds_some (e : ErrCode) (v : Option Nat) (p : Bool) (k : Nat) (s : State) :
    (State.complete ⟨e, v, p, some k⟩ s).mrRounds = BitVec.ofNat 16 k := rfl

end Sys2Proof.Machine
end

