-- ==== Sys2Proof/Laws/ModInv.lean ====
section
/-! SUPPORT. The extended Euclidean algorithm meets its contract (42_modinv.md R142, R143). -/

namespace Sys2Proof.Machine

/-- Enough fuel: more changes nothing. -/
theorem extGcdFuel_stable (f g a b : Nat) (hf : a < f) (hg : a < g) :
    extGcdFuel f a b = extGcdFuel g a b := by
  induction f generalizing g a b with
  | zero => omega
  | succ f ih =>
    cases g with
    | zero => omega
    | succ g =>
      by_cases h : a = 0
      · simp [extGcdFuel, h]
      · have hlt : b % a < a := Nat.mod_lt _ (Nat.pos_of_ne_zero h)
        simp only [extGcdFuel, if_neg h]
        rw [ih g (b % a) a (by omega) (by omega)]

/-- The base case of R142. -/
theorem extGcd_zero (b : Nat) : extGcd 0 b = { g := b, x := 0, y := 1 } := rfl

/-- The recursive step of R142. -/
theorem extGcd_step (a b : Nat) (h : a ≠ 0) :
    extGcd a b =
      { g := (extGcd (b % a) a).g
        x := (extGcd (b % a) a).y - (b / a : Nat) * (extGcd (b % a) a).x
        y := (extGcd (b % a) a).x } := by
  have hlt : b % a < a := Nat.mod_lt _ (Nat.pos_of_ne_zero h)
  unfold extGcd
  rw [extGcdFuel, if_neg h, extGcdFuel_stable a (b % a + 1) (b % a) a hlt (Nat.lt_succ_self _)]

/-- `extended_gcd` answers the greatest common divisor. -/
theorem extGcd_g (a b : Nat) : (extGcd a b).g = Nat.gcd a b := by
  induction a, b using Nat.gcd.induction with
  | H0 b => simp [extGcd_zero]
  | H1 a b h ih =>
    rw [extGcd_step a b (Nat.pos_iff_ne_zero.mp h), ih, ← Nat.gcd_rec]

/-- The contract `a*x + b*y = g`. -/
theorem extGcd_bezout (a b : Nat) :
    (a : Int) * (extGcd a b).x + (b : Int) * (extGcd a b).y = (extGcd a b).g := by
  induction a, b using Nat.gcd.induction with
  | H0 b => simp [extGcd_zero]
  | H1 a b h ih =>
    rw [extGcd_step a b (Nat.pos_iff_ne_zero.mp h)]
    have hdm : (b : Int) = (a : Int) * ((b / a : Nat) : Int) + ((b % a : Nat) : Int) := by
      exact_mod_cast (Nat.div_add_mod b a).symm
    generalize (extGcd (b % a) a).x = x at *
    generalize (extGcd (b % a) a).y = y at *
    generalize ((extGcd (b % a) a).g : Int) = g at *
    generalize ((b / a : Nat) : Int) = q at *
    generalize ((b % a : Nat) : Int) = r at *
    rw [← ih, hdm]; ring

theorem inverseMod_lt (b n : Nat) (h : 0 < n) : inverseMod b n < n := by
  have h0 : (0 : Int) < n := by exact_mod_cast h
  have h1 := Int.emod_nonneg (extGcd b n).x (ne_of_gt h0)
  have h2 := Int.emod_lt_of_pos (extGcd b n).x h0
  unfold inverseMod
  omega

/-- The residue of the coefficient of `b` is an inverse of `b` when `b` and `n` are coprime (R140). -/
theorem mul_inverseMod (b n : Nat) (h : 2 ≤ n) (hg : Nat.gcd b n = 1) :
    b * inverseMod b n % n = 1 := by
  have h0 : (0 : Int) < n := by omega
  have hx : ((inverseMod b n : Nat) : Int) = (extGcd b n).x % n :=
    Int.toNat_of_nonneg (Int.emod_nonneg _ (ne_of_gt h0))
  have hb := extGcd_bezout b n
  rw [extGcd_g, hg] at hb
  have hmod : ((b * inverseMod b n % n : Nat) : Int) = 1 := by
    push_cast
    rw [hx, Int.mul_emod, Int.emod_emod_of_dvd _ (dvd_refl _), ← Int.mul_emod,
      show (b : Int) * (extGcd b n).x = 1 - n * (extGcd b n).y by push_cast at hb; linarith,
      Int.sub_mul_emod_self_left]
    exact Int.emod_eq_of_lt (by decide) (by omega)
  exact_mod_cast hmod

end Sys2Proof.Machine
end

