-- ==== Sys2Proof/Laws/ModExp.lean ====
section
/-! SUPPORT. Both exponentiation forms compute the power (41_modexp.md R130, R131). -/

namespace Sys2Proof.Machine

/-- The top bits of an exponent, one more bit at a time. -/
theorem shiftRight_bit (e k : Nat) :
    e / 2 ^ k = 2 * (e / 2 ^ (k + 1)) + (if e.testBit k then 1 else 0) := by
  have h1 : e / 2 ^ (k + 1) = e / 2 ^ k / 2 := by rw [Nat.pow_succ, Nat.div_div_eq_div_mul]
  have h2 : e.testBit k = decide (e / 2 ^ k % 2 = 1) := Nat.testBit_eq_decide_div_mod_eq
  rw [h1, h2]
  have := Nat.div_add_mod (e / 2 ^ k) 2
  rcases Nat.mod_two_eq_zero_or_one (e / 2 ^ k) with h | h <;> rw [h] at this ⊢ <;> simp <;> omega

/-- The ladder's invariant: r0 is the power for the bits done, and r1 is r0 times the base. -/
theorem ladderLoop_eq (a e n k r0 r1 : Nat)
    (h0 : r0 = a ^ (e / 2 ^ k) % n) (h1 : r1 = a ^ (e / 2 ^ k + 1) % n) :
    ladderLoop e n k r0 r1 = a ^ e % n := by
  induction k generalizing r0 r1 with
  | zero => simpa [ladderLoop] using h0
  | succ k ih =>
    have hs := shiftRight_bit e k
    generalize e / 2 ^ (k + 1) = q at *
    have m00 : r0 * r0 % n = a ^ (2 * q) % n := by
      rw [h0, ← Nat.mul_mod, ← Nat.pow_add, Nat.two_mul]
    have m01 : r0 * r1 % n = a ^ (2 * q + 1) % n := by
      rw [h0, h1, ← Nat.mul_mod, ← Nat.pow_add]; congr 2; omega
    have m11 : r1 * r1 % n = a ^ (2 * q + 2) % n := by
      rw [h1, ← Nat.mul_mod, ← Nat.pow_add]; congr 2; omega
    rw [ladderLoop]
    split
    · rename_i hb
      simp only [hb, if_true] at hs
      exact ih _ _ (by rw [m01, hs]) (by rw [m11, hs])
    · rename_i hb
      simp only [hb] at hs
      exact ih _ _ (by rw [m00, hs]; rfl) (by rw [m01, hs]; rfl)

/-- The ladder form computes the power. -/
theorem ladder_eq (bits a e n : Nat) (h : e < 2 ^ bits) : ladder bits a e n = a ^ e % n := by
  have hq : e / 2 ^ bits = 0 := Nat.div_eq_of_lt h
  exact ladderLoop_eq a e n bits _ _ (by rw [hq, Nat.pow_zero]) (by rw [hq, Nat.zero_add, Nat.pow_one])

/-- What makes Montgomery constants right: RM is coprime to the odd modulus, which is below RM, and
ninv is minus its inverse. -/
structure MontConst.Ok (c : MontConst) : Prop where
  n_pos : 0 < c.n
  coprime : Nat.Coprime c.rm c.n
  ninv : c.n * c.ninv % c.rm = c.rm - 1
  rm_pos : 1 < c.rm

theorem montConst_ok (bits n : Nat) (hodd : n % 2 = 1) : (montConst bits n).Ok := by
  have hrm : 4 ≤ 2 ^ (bits + 2) := by
    rw [Nat.pow_add]; have := Nat.two_pow_pos bits; omega
  have hc : Nat.Coprime n (2 ^ (bits + 2)) :=
    Nat.Coprime.pow_right _ (Nat.coprime_two_right.mpr (Nat.odd_iff.mpr hodd))
  have hinv := mul_inverseMod n (2 ^ (bits + 2)) (by omega) hc
  have hlt := inverseMod_lt n (2 ^ (bits + 2)) (by omega)
  refine ⟨by show 0 < n; omega, hc.symm, ?_, by show 1 < 2 ^ (bits + 2); omega⟩
  show n * (2 ^ (bits + 2) - inverseMod n (2 ^ (bits + 2))) % 2 ^ (bits + 2) = 2 ^ (bits + 2) - 1
  generalize 2 ^ (bits + 2) = rm at *
  generalize inverseMod n rm = i at *
  have hsum : n * (rm - i) + n * i = n * rm := by
    rw [← Nat.mul_add, Nat.sub_add_cancel (Nat.le_of_lt hlt)]
  have hz : (n * (rm - i) % rm + 1) % rm = 0 := by
    have : (n * (rm - i) + n * i) % rm = 0 := by rw [hsum]; exact Nat.mul_mod_left n rm
    rwa [Nat.add_mod, hinv] at this
  have hl : n * (rm - i) % rm < rm := Nat.mod_lt _ (by omega)
  rcases Nat.lt_or_ge (n * (rm - i) % rm + 1) rm with hlt' | hge
  · rw [Nat.mod_eq_of_lt hlt'] at hz; omega
  · omega

/-- The Montgomery reduction divides by RM modulo n, and answers below n. -/
theorem redc_spec {c : MontConst} (hc : c.Ok) (t : Nat) (ht : t < c.rm * c.n) :
    redc c t * c.rm % c.n = t % c.n ∧ redc c t < c.n := by
  obtain ⟨hn, hcop, hni, hrm⟩ := hc
  have hm : t % c.rm * c.ninv % c.rm < c.rm := Nat.mod_lt _ (by omega)
  have hdvd : c.rm ∣ t + t % c.rm * c.ninv % c.rm * c.n := by
    rw [Nat.dvd_iff_mod_eq_zero]
    have e1 : (t % c.rm * c.ninv % c.rm * c.n) % c.rm = t % c.rm * (c.rm - 1) % c.rm := by
      rw [Nat.mod_mul_mod, Nat.mul_assoc, Nat.mul_comm c.ninv, Nat.mul_mod, hni, Nat.mod_mod,
        ← Nat.mod_mod_of_dvd t (dvd_refl c.rm)]
    rw [Nat.add_mod, e1, ← Nat.mod_mod t c.rm, ← Nat.add_mod, Nat.mod_mod]
    have : t % c.rm + t % c.rm * (c.rm - 1) = t % c.rm * c.rm := by
      conv_lhs => rw [← Nat.mul_one (t % c.rm), Nat.mul_assoc, Nat.one_mul, ← Nat.mul_add]
      congr 1; omega
    rw [this]; exact Nat.mul_mod_left _ _
  obtain ⟨u, hu⟩ := hdvd
  have hdiv : (t + t % c.rm * c.ninv % c.rm * c.n) / c.rm = u := by
    rw [hu, Nat.mul_div_cancel_left _ (by omega)]
  have hmul : u * c.rm % c.n = t % c.n := by
    rw [Nat.mul_comm, ← hu, Nat.add_mul_mod_self_right]
  have hlt : u < 2 * c.n := by
    have h1 : t % c.rm * c.ninv % c.rm * c.n < c.rm * c.n := (Nat.mul_lt_mul_right hn).mpr hm
    have h2 : c.rm * u < c.rm * (2 * c.n) := by
      rw [← hu, show c.rm * (2 * c.n) = c.rm * c.n + c.rm * c.n by ring]; omega
    exact Nat.lt_of_mul_lt_mul_left h2
  unfold redc
  simp only [hdiv]
  split
  · rename_i hge
    refine ⟨?_, by omega⟩
    rw [← hmul]
    conv_rhs => rw [← Nat.sub_add_cancel hge, Nat.add_mul, Nat.add_mul_mod_self_left]
  · exact ⟨hmul, by omega⟩

theorem mont_spec {c : MontConst} (hc : c.Ok) (x y : Nat) (hx : x < c.n) (hy : y < c.rm) :
    mont c x y * c.rm % c.n = x * y % c.n ∧ mont c x y < c.n :=
  redc_spec hc (x * y) (by rw [Nat.mul_comm c.rm]; exact Nat.mul_lt_mul'' hx hy)

/-- A number is in Montgomery form `x * RM` of `v`. -/
abbrev MontConst.Rep (c : MontConst) (x v : Nat) : Prop := x % c.n = v * c.rm % c.n ∧ x < c.n

theorem mont_rep {c : MontConst} (hc : c.Ok) (hn : c.n ≤ c.rm) {x y v w : Nat}
    (hx : c.Rep x v) (hy : c.Rep y w) : c.Rep (mont c x y) (v * w) := by
  obtain ⟨h1, h2⟩ := mont_spec hc x y hx.2 (Nat.lt_of_lt_of_le hy.2 hn)
  refine ⟨?_, h2⟩
  have : mont c x y * c.rm ≡ v * w * c.rm * c.rm [MOD c.n] := by
    have e : x * y ≡ (v * c.rm) * (w * c.rm) [MOD c.n] := Nat.ModEq.mul hx.1 hy.1
    have h1' : mont c x y * c.rm ≡ x * y [MOD c.n] := h1
    exact h1'.trans (e.trans (by rw [show v * c.rm * (w * c.rm) = v * w * c.rm * c.rm by ring]))
  exact Nat.ModEq.cancel_right_of_coprime (Nat.Coprime.gcd_eq_one hc.coprime.symm) this

/-- The Montgomery loop's invariant: the accumulator represents the power for the bits done. -/
theorem montLoop_rep {c : MontConst} (hc : c.Ok) (hn : c.n ≤ c.rm) (a e abar k acc : Nat)
    (ha : c.Rep abar a) (h : c.Rep acc (a ^ (e / 2 ^ k))) :
    c.Rep (montLoop c e abar k acc) (a ^ e) := by
  induction k generalizing acc with
  | zero => simpa [montLoop] using h
  | succ k ih =>
    have hs := shiftRight_bit e k
    generalize e / 2 ^ (k + 1) = q at *
    have hsq := mont_rep hc hn h h
    rw [← Nat.pow_add, ← Nat.two_mul] at hsq
    rw [montLoop]
    apply ih
    rw [hs]
    split
    · have := mont_rep hc hn hsq ha
      rwa [← Nat.pow_succ] at this
    · exact hsq

/-- The Montgomery form computes the power for an odd modulus below 2^bits. -/
theorem montExp_eq (bits a e n : Nat) (hodd : n % 2 = 1) (h3 : 3 ≤ n) (hn : n < 2 ^ bits)
    (he : e < 2 ^ bits) : montExp bits a e n = a ^ e % n := by
  have hc := montConst_ok bits n hodd
  have hrm : n ≤ 2 ^ (bits + 2) := by
    have := Nat.pow_le_pow_right (n := 2) (by decide) (Nat.le_add_right bits 2); omega
  have hr2 : (2 ^ (bits + 2)) ^ 2 % n < 2 ^ (bits + 2) :=
    Nat.lt_of_lt_of_le (Nat.mod_lt _ (by omega)) hrm
  have hcop : Nat.gcd n (2 ^ (bits + 2)) = 1 := hc.coprime.symm
  -- x turned into Montgomery form by one product with RM^2
  have toRep : ∀ x, x < n → (montConst bits n).Rep (mont (montConst bits n) x ((2 ^ (bits + 2)) ^ 2 % n)) x := by
    intro x hx
    obtain ⟨h1, h2⟩ := mont_spec hc x ((2 ^ (bits + 2)) ^ 2 % n) hx hr2
    refine ⟨?_, h2⟩
    refine Nat.ModEq.cancel_right_of_coprime (c := 2 ^ (bits + 2)) hcop ?_
    have e2 : x * ((2 ^ (bits + 2)) ^ 2 % n) ≡ x * (2 ^ (bits + 2)) ^ 2 [MOD n] :=
      Nat.ModEq.mul_left x (Nat.mod_modEq _ _)
    have h1' : mont (montConst bits n) x ((2 ^ (bits + 2)) ^ 2 % n) * 2 ^ (bits + 2) ≡
        x * ((2 ^ (bits + 2)) ^ 2 % n) [MOD n] := h1
    refine h1'.trans (e2.trans ?_)
    rw [show x * (2 ^ (bits + 2)) ^ 2 = x * 2 ^ (bits + 2) * 2 ^ (bits + 2) by ring]
    exact Nat.ModEq.rfl
  have hbase : (montConst bits n).Rep
      (mont (montConst bits n) (a % n) ((2 ^ (bits + 2)) ^ 2 % n)) a := by
    obtain ⟨h1, h2⟩ := toRep (a % n) (Nat.mod_lt _ (by omega))
    exact ⟨h1.trans (Nat.ModEq.mul_right (2 ^ (bits + 2)) (Nat.mod_modEq a n)), h2⟩
  have hone := toRep 1 (by omega)
  have hacc := montLoop_rep hc hrm a e _ bits _ hbase
    (by rw [Nat.div_eq_of_lt he, Nat.pow_zero]; exact hone)
  -- out of Montgomery form by one product with 1
  obtain ⟨h1, h2⟩ := mont_spec hc _ 1 hacc.2 (by show 1 < 2 ^ (bits + 2); omega)
  have hval : montExp bits a e n * 2 ^ (bits + 2) ≡ a ^ e * 2 ^ (bits + 2) [MOD n] := by
    have h1' := h1
    rw [Nat.mul_one] at h1'
    exact h1'.trans hacc.1
  have := Nat.ModEq.cancel_right_of_coprime (c := 2 ^ (bits + 2)) hcop hval
  rw [← this]
  exact (Nat.mod_eq_of_lt h2).symm

/-- Form independence (R131): in both forms the block computes the power. -/
theorem modExp_eq (c : Config) (a e n : Nat) (hn : n < 2 ^ c.opw) (he : e < 2 ^ c.opw) :
    modExp c a e n = a ^ e % n := by
  unfold modExp
  split
  · exact ladder_eq _ _ _ _ he
  · split
    · rename_i h
      exact montExp_eq _ _ _ _ h.1 h.2 hn he
    · exact ladder_eq _ _ _ _ he

end Sys2Proof.Machine
end

