-- ==== Sys2Proof/Laws/Operands.lean ====
section
/-! SUPPORT. Operand windows: a word read after a word written, the width bound, and a value as the
sum of its words (20_memory.md R62, R63). -/

namespace Sys2Proof.Machine

theorem val_lt (s : State) (x : OperandReg) : s.val x < 2 ^ s.cfg.opw :=
  Nat.mod_lt _ (Nat.two_pow_pos _)

theorem valR_lt (s : State) : s.valR < 2 ^ s.cfg.opw :=
  Nat.mod_lt _ (Nat.two_pow_pos _)

theorem opw_eq (c : Config) : c.opw = 32 * c.words := rfl

theorem words_bounds (c : Config) : 2 ≤ c.words ∧ c.words ≤ 128 := by
  have := c.opwSel.isLt
  unfold Config.words
  omega

theorem wordAt_toNat (v i : Nat) : (wordAt v i).toNat = v / 2 ^ (32 * i) % 2 ^ 32 := by
  simp [wordAt]

/-- The bits of a written value: below the word the old ones, in the word the new ones, above the old. -/
theorem testBit_setWordAt (v i : Nat) (w : Word) (b : Nat) :
    (setWordAt v i w).testBit b =
      if b < 32 * i then v.testBit b
      else if b < 32 * (i + 1) then w.getLsbD (b - 32 * i)
      else v.testBit b := by
  have hw : w.toNat < 2 ^ 32 := w.isLt
  unfold setWordAt
  rw [Nat.add_comm, Nat.testBit_two_pow_mul_add _ (Nat.mod_lt _ (Nat.two_pow_pos _))]
  split
  · rw [Nat.testBit_mod_two_pow]; simp [*]
  · rw [Nat.add_comm, Nat.testBit_two_pow_mul_add _ hw]
    by_cases h : b < 32 * (i + 1)
    · rw [if_pos (by omega), if_pos h, BitVec.getLsbD]
    · rw [if_neg (by omega), if_neg h, Nat.testBit_div_two_pow]
      congr 1; omega

theorem testBit_eq_getLsbD_wordAt (v i b : Nat) (h : b < 32) :
    (wordAt v i).getLsbD b = v.testBit (32 * i + b) := by
  rw [wordAt, BitVec.getLsbD_ofNat, Nat.testBit_div_two_pow, Nat.add_comm]
  simp [h]

/-- Reading a word back after a write of a word. -/
theorem wordAt_setWordAt (v i j : Nat) (w : Word) :
    wordAt (setWordAt v i w) j = if j = i then w else wordAt v j := by
  apply BitVec.eq_of_getLsbD_eq
  intro b hb
  rw [testBit_eq_getLsbD_wordAt _ _ _ hb, testBit_setWordAt]
  by_cases hji : j = i
  · subst hji
    rw [if_neg (by omega), if_pos (by omega), if_pos rfl]
    congr 1; omega
  · rw [if_neg hji, testBit_eq_getLsbD_wordAt _ _ _ hb]
    by_cases hlt : 32 * j + b < 32 * i
    · rw [if_pos hlt]
    · rw [if_neg hlt, if_neg (by omega)]

theorem setWordAt_lt {v i k : Nat} (w : Word) (hi : i < k) (hv : v < 2 ^ (32 * k)) :
    setWordAt v i w < 2 ^ (32 * k) := by
  apply Nat.lt_pow_two_of_testBit
  intro b hb
  have h : v.testBit b = false := Nat.testBit_lt_two_pow (Nat.lt_of_lt_of_le hv (Nat.pow_le_pow_right (by decide) hb))
  rw [testBit_setWordAt, if_neg (by omega), if_neg (by omega), h]

theorem sumWords_eq (v k : Nat) : sumWords v k = v % 2 ^ (32 * k) := by
  induction k with
  | zero => simp [sumWords, Nat.mod_one]
  | succ k ih =>
    rw [sumWords, ih, wordAt_toNat, Nat.mul_succ, Nat.pow_add, Nat.mod_mul, Nat.mul_comm (_ % _)]

theorem windowLoc_eq_operand {words k i : Nat} {x y : OperandReg}
    (h : windowLoc words k (.operand x) = .operand y i) : x = y ∧ k = i ∧ i < words := by
  unfold windowLoc at h
  split at h
  · injection h with hx hi
    exact ⟨hx, hi, hi ▸ ‹_›⟩
  · cases h

theorem controlLoc_ne_operand (k : Nat) (x : OperandReg) (i : Nat) :
    controlLoc k ≠ .operand x i := by
  unfold controlLoc
  split <;> exact nofun

theorem windowLoc_result_ne_operand (words k i : Nat) (x : OperandReg) :
    windowLoc words k .result ≠ .operand x i := by
  unfold windowLoc
  split <;> exact nofun

/-- A window place is at an index below OPW/32 (R65). -/
theorem locate_operand_lt {c : Config} {off : Offset} {x : OperandReg} {i : Nat}
    (h : locate c off = .operand x i) : i < c.words := by
  unfold locate at h
  split at h
  · exact absurd h (controlLoc_ne_operand _ _ _)
  · exact (windowLoc_eq_operand h).2.2
  · exact (windowLoc_eq_operand h).2.2
  · exact (windowLoc_eq_operand h).2.2
  · exact absurd h (windowLoc_result_ne_operand _ _ _ _)
  · cases h

/-- The offset of word `i` of an operand window (R62) names that word. -/
theorem locate_operand_offset (c : Config) (x : OperandReg) {i : Nat} (h : i < c.words) :
    locate c (BitVec.ofNat 12 (x.offset + 4 * i)) = .operand x i := by
  have hw := (words_bounds c).2
  have hb : x.offset + 4 * i < 4096 := by cases x <;> simp only [OperandReg.offset] <;> omega
  have hn : (BitVec.ofNat 12 (x.offset + 4 * i)).toNat = x.offset + 4 * i := by
    rw [BitVec.toNat_ofNat]; exact Nat.mod_eq_of_lt hb
  have hi : (x.offset + 4 * i) % 0x200 / 4 = i := by
    cases x <;> simp only [OperandReg.offset] <;> omega
  have hk : (x.offset + 4 * i) / 0x200 = match x with | .a => 1 | .e => 2 | .n => 3 := by
    cases x <;> simp only [OperandReg.offset] <;> omega
  unfold locate
  rw [hn, hi, hk]
  cases x <;> simp only [windowLoc, if_pos h]

theorem aligned_operand_offset (x : OperandReg) {i : Nat} (h : i < 128) :
    aligned (BitVec.ofNat 12 (x.offset + 4 * i)) = true := by
  have hn : (BitVec.ofNat 12 (x.offset + 4 * i)).toNat = x.offset + 4 * i := by
    rw [BitVec.toNat_ofNat]
    cases x <;> simp only [OperandReg.offset] <;> omega
  rw [aligned, hn, decide_eq_true_eq]
  cases x <;> simp only [OperandReg.offset] <;> omega

theorem controlLoc_ne_result (k i : Nat) : controlLoc k ≠ .result i := by
  unfold controlLoc
  split <;> exact nofun

theorem aligned_iff (off : Offset) : aligned off = true ↔ off.toNat % 4 = 0 := by simp [aligned]

/-- The eight control registers are eight places. -/
theorem controlLoc_inj {j k : Nat} (hk : k < 8) (h : controlLoc j = controlLoc k) : j = k := by
  have small : ∀ a < 8, ∀ b < 8, controlLoc a = controlLoc b → a = b := by decide
  have defined : ∀ b < 8, controlLoc b ≠ .reserved := by decide
  by_cases hj : j < 8
  · exact small j hj k hk h
  · refine absurd h ?_
    have : controlLoc j = .reserved := by unfold controlLoc; split <;> first | omega | rfl
    rw [this]; exact (defined k hk).symm

/-- Each control register is at its aligned offset of R61 alone: `k` is its word index. -/
theorem locate_eq_control {c : Config} {off : Offset} {k : Nat} (ha : aligned off = true) (hk : k < 8)
    (h : locate c off = controlLoc k) : off = BitVec.ofNat 12 (4 * k) := by
  have window : ∀ j (mk : Nat → Loc), (∀ i, controlLoc k ≠ mk i) → windowLoc c.words j mk ≠ controlLoc k := by
    intro j mk hmk hw
    unfold windowLoc at hw
    split at hw
    · exact hmk _ hw.symm
    · exact absurd (controlLoc_inj (j := 8) hk hw) (by omega)
  have h4 := (aligned_iff off).mp ha
  have hlt := off.isLt
  unfold locate at h
  split at h
  · have := controlLoc_inj hk h
    apply BitVec.eq_of_toNat_eq
    rw [BitVec.toNat_ofNat]
    omega
  · exact absurd h (window _ _ fun _ => controlLoc_ne_operand _ _ _)
  · exact absurd h (window _ _ fun _ => controlLoc_ne_operand _ _ _)
  · exact absurd h (window _ _ fun _ => controlLoc_ne_operand _ _ _)
  · exact absurd h (window _ _ fun _ => controlLoc_ne_result _ _)
  · exact absurd (controlLoc_inj (j := 8) hk h) (by omega)

/-- A word of an operand window is at its offset of R62 alone. -/
theorem locate_eq_operand {c : Config} {off : Offset} {x : OperandReg} {i : Nat} (ha : aligned off = true)
    (h : locate c off = .operand x i) : off = BitVec.ofNat 12 (x.offset + 4 * i) := by
  have h4 := (aligned_iff off).mp ha
  have hlt := off.isLt
  apply BitVec.eq_of_toNat_eq
  rw [BitVec.toNat_ofNat]
  unfold locate at h
  split at h
  · exact absurd h (controlLoc_ne_operand _ _ _)
  · obtain ⟨rfl, rfl, _⟩ := windowLoc_eq_operand h
    simp only [OperandReg.offset]; omega
  · obtain ⟨rfl, rfl, _⟩ := windowLoc_eq_operand h
    simp only [OperandReg.offset]; omega
  · obtain ⟨rfl, rfl, _⟩ := windowLoc_eq_operand h
    simp only [OperandReg.offset]; omega
  · exact absurd h (windowLoc_result_ne_operand _ _ _ _)
  · cases h

/-- The offset of word `i` of R (R62) names that word. -/
theorem locate_result_offset (c : Config) {i : Nat} (h : i < c.words) :
    locate c (BitVec.ofNat 12 (resultOffset + 4 * i)) = .result i := by
  have hw := (words_bounds c).2
  have hn : (BitVec.ofNat 12 (resultOffset + 4 * i)).toNat = 0x800 + 4 * i := by
    rw [BitVec.toNat_ofNat]; exact Nat.mod_eq_of_lt (by simp only [resultOffset]; omega)
  unfold locate
  rw [hn, show (0x800 + 4 * i) / 0x200 = 4 by omega, show (0x800 + 4 * i) % 0x200 / 4 = i by omega]
  simp only [windowLoc, if_pos h]

theorem setOperandWord_val_lt {s : State} {x : OperandReg} {i : Nat} (w : Word)
    (hi : i < s.cfg.words) : setWordAt (s.val x) i w < 2 ^ s.cfg.opw :=
  setWordAt_lt w hi (val_lt s x)

end Sys2Proof.Machine
end

