-- ==== Sys2Proof/Laws/MillerRabin.lean ====
section
/-! SUPPORT. The decomposition of n - 1 (00_scope.md R19), a round as number theory (43_miller_rabin.md
R151), and what MRTEST's rounds answer (R153). -/

namespace Sys2Proof.Machine

theorem splitFuel_mul (fuel m k : Nat) :
    (splitFuel fuel m k).1 * 2 ^ (splitFuel fuel m k).2 = m * 2 ^ k := by
  induction fuel generalizing m k with
  | zero => rfl
  | succ fuel ih =>
    rw [splitFuel]
    split
    · rename_i h
      rw [ih, Nat.pow_succ, ← Nat.mul_assoc, Nat.mul_right_comm, Nat.div_mul_cancel (Nat.dvd_of_mod_eq_zero h)]
    · rfl

theorem splitFuel_odd (fuel m k : Nat) (h0 : 0 < m) (hf : m ≤ fuel) :
    (splitFuel fuel m k).1 % 2 = 1 := by
  induction fuel generalizing m k with
  | zero => omega
  | succ fuel ih =>
    rw [splitFuel]
    split
    · exact ih _ _ (by omega) (by omega)
    · omega

/-- `split(n)` meets R19. -/
theorem split_spec (n : Nat) (h : 2 ≤ n) :
    n - 1 = (split n).1 * 2 ^ (split n).2 ∧ (split n).1 % 2 = 1 := by
  constructor
  · exact (Nat.mul_one _).symm.trans (splitFuel_mul n (n - 1) 0).symm
  · exact splitFuel_odd n (n - 1) 0 (by omega) (by omega)

/-- The pair of R19 is unique. -/
theorem split_unique {m s m' s' : Nat} (hm : m % 2 = 1) (hm' : m' % 2 = 1)
    (h : m * 2 ^ s = m' * 2 ^ s') : m = m' ∧ s = s' := by
  induction s generalizing s' with
  | zero =>
    cases s' with
    | zero => simpa using h
    | succ s' => rw [Nat.pow_succ, ← Nat.mul_assoc] at h; omega
  | succ s ih =>
    cases s' with
    | zero => rw [Nat.pow_succ, ← Nat.mul_assoc] at h; omega
    | succ s' =>
      rw [Nat.pow_succ, ← Nat.mul_assoc, Nat.pow_succ, ← Nat.mul_assoc] at h
      have := ih (s' := s') (by omega)
      omega

theorem split_odd_pos (n : Nat) (h3 : 3 ≤ n) (hodd : n % 2 = 1) : 1 ≤ (split n).2 := by
  obtain ⟨h1, h2⟩ := split_spec n (by omega)
  rcases Nat.eq_zero_or_pos (split n).2 with h | h
  · rw [h, Nat.pow_zero, Nat.mul_one] at h1; omega
  · exact h

theorem split_fst_lt (n : Nat) (h : 2 ≤ n) : (split n).1 < n := by
  obtain ⟨h1, _⟩ := split_spec n h
  have := Nat.le_mul_of_pos_right (split n).1 (Nat.two_pow_pos (split n).2)
  omega

theorem mrSquare_iff (n k x : Nat) :
    mrSquare n k x = true ↔ ∃ j, 1 ≤ j ∧ j ≤ k ∧ x ^ 2 ^ j % n = n - 1 := by
  induction k generalizing x with
  | zero => simp only [mrSquare]; constructor
            · exact nofun
            · rintro ⟨j, h1, h2, _⟩; omega
  | succ k ih =>
    have hpow : ∀ j, (x * x % n) ^ 2 ^ j % n = x ^ 2 ^ (j + 1) % n := by
      intro j
      rw [← Nat.pow_mod, ← Nat.pow_two, ← Nat.pow_mul, ← Nat.pow_succ']
    rw [mrSquare]
    split
    · rename_i h
      simp only [true_iff]
      exact ⟨1, le_refl _, by omega, by rw [Nat.pow_one, Nat.pow_two]; exact h⟩
    · rename_i h
      rw [ih]
      constructor
      · rintro ⟨j, h1, h2, h3⟩
        exact ⟨j + 1, by omega, by omega, by rw [← hpow]; exact h3⟩
      · rintro ⟨j, h1, h2, h3⟩
        rcases Nat.lt_or_ge 1 j with hj | hj
        · refine ⟨j - 1, by omega, by omega, ?_⟩
          rw [hpow, Nat.sub_add_cancel h1]; exact h3
        · obtain rfl : j = 1 := by omega
          rw [Nat.pow_one, Nat.pow_two] at h3
          exact absurd h3 h

/-- The model's round answers PASS exactly when the witness passes as number theory. -/
theorem mrRound_iff (c : Config) (n a : Nat) (h3 : 3 ≤ n) (hodd : n % 2 = 1) (hn : n < 2 ^ c.opw) :
    mrRound c n (split n).1 (split n).2 a = true ↔ passesRound n a := by
  obtain ⟨hs, hm⟩ := split_spec n (by omega)
  have hpos := split_odd_pos n h3 hodd
  have hlt := split_fst_lt n (by omega)
  have hx : modExp c a (split n).1 n = a ^ (split n).1 % n := modExp_eq c _ _ _ hn (by omega)
  have key : mrRound c n (split n).1 (split n).2 a = true ↔
      (a ^ (split n).1 % n = 1 ∨ ∃ j, j < (split n).2 ∧ a ^ ((split n).1 * 2 ^ j) % n = n - 1) := by
    simp only [mrRound, hx]
    have hpow : ∀ j, (a ^ (split n).1 % n) ^ 2 ^ j % n = a ^ ((split n).1 * 2 ^ j) % n := by
      intro j; rw [← Nat.pow_mod, ← Nat.pow_mul]
    split
    · rename_i h
      simp only [true_iff]
      rcases h with h | h
      · exact .inl h
      · exact .inr ⟨0, by omega, by simpa using h⟩
    · rename_i h
      rw [mrSquare_iff]
      constructor
      · rintro ⟨j, h1, h2, hj⟩
        exact .inr ⟨j, by omega, by rw [← hpow]; exact hj⟩
      · rintro (h1 | ⟨j, hj, h2⟩)
        · exact absurd (.inl h1) h
        · rcases Nat.eq_zero_or_pos j with rfl | hj0
          · exact absurd (.inr (by simpa using h2)) h
          · exact ⟨j, hj0, by omega, by rw [hpow]; exact h2⟩
  rw [key]
  constructor
  · intro h; exact ⟨_, _, hs, hm, h⟩
  · rintro ⟨m, s, h1, h2, h⟩
    obtain ⟨rfl, rfl⟩ := split_unique h2 hm (h1.symm.trans hs)
    exact h

/-- The rounds of MRTEST when the next `left` witnesses all come and pass. -/
theorem mrLoop_allPass (c : Config) (n m s : Nat) (draw : Nat → Option Nat) (w : Nat → Nat)
    (left i last : Nat)
    (hw : ∀ j, i ≤ j → j < i + left → (draw j).map (drawWitness 2 (n - 2)) = some (w j))
    (hp : ∀ j, i ≤ j → j < i + left → mrRound c n m s (w j) = true) :
    mrLoop c n m s draw left i last =
      some ⟨.ok, some (if left = 0 then last else w (i + left - 1)), true, some (i + left)⟩ := by
  induction left generalizing i last with
  | zero => rfl
  | succ left ih =>
    have h0 := hw i (le_refl _) (by omega)
    obtain ⟨x, hx, hwx⟩ := Option.map_eq_some_iff.mp h0
    rw [mrLoop, hx]
    simp only [hwx, hp i (le_refl _) (by omega), if_true]
    rw [ih (i + 1) (w i) (fun j h1 h2 => hw j (by omega) (by omega))
      (fun j h1 h2 => hp j (by omega) (by omega))]
    rcases Nat.eq_zero_or_pos left with rfl | hl
    · simp
    · rw [if_neg (by omega), if_neg (by omega), show i + 1 + left = i + (left + 1) by omega]

/-- The rounds of MRTEST when the `k`-th witness from here is the first that fails. -/
theorem mrLoop_firstFail (c : Config) (n m s : Nat) (draw : Nat → Option Nat) (w : Nat → Nat)
    (left i last k : Nat) (hk : k < left)
    (hw : ∀ j, i ≤ j → j ≤ i + k → (draw j).map (drawWitness 2 (n - 2)) = some (w j))
    (hp : ∀ j, i ≤ j → j < i + k → mrRound c n m s (w j) = true)
    (hf : mrRound c n m s (w (i + k)) = false) :
    mrLoop c n m s draw left i last =
      some ⟨.ok, some (w (i + k)), false, some (i + k + 1)⟩ := by
  induction left generalizing i last k with
  | zero => omega
  | succ left ih =>
    obtain ⟨x, hx, hwx⟩ := Option.map_eq_some_iff.mp (hw i (le_refl _) (by omega))
    rw [mrLoop, hx]
    simp only [hwx]
    cases k with
    | zero => rw [Nat.add_zero] at hf; simp [hf]
    | succ k =>
      simp only [hp i (le_refl _) (by omega), if_true]
      rw [ih (i + 1) (w i) k (by omega) (fun j h1 h2 => hw j (by omega) (by omega))
        (fun j h1 h2 => hp j (by omega) (by omega))
        (by rw [show i + 1 + k = i + (k + 1) by omega]; exact hf)]
      rw [show i + 1 + k = i + (k + 1) by omega]

/-- The rounds of MRTEST when the `k`-th draw from here does not come, and no witness fails before. -/
theorem mrLoop_waits (c : Config) (n m s : Nat) (draw : Nat → Option Nat) (w : Nat → Nat)
    (left i last k : Nat) (hk : k < left)
    (hw : ∀ j, i ≤ j → j < i + k → (draw j).map (drawWitness 2 (n - 2)) = some (w j))
    (hp : ∀ j, i ≤ j → j < i + k → mrRound c n m s (w j) = true)
    (hn : draw (i + k) = none) : mrLoop c n m s draw left i last = none := by
  induction left generalizing i last k with
  | zero => omega
  | succ left ih =>
    cases k with
    | zero => rw [Nat.add_zero] at hn; rw [mrLoop, hn]
    | succ k =>
      obtain ⟨x, hx, hwx⟩ := Option.map_eq_some_iff.mp (hw i (le_refl _) (by omega))
      rw [mrLoop, hx]
      simp only [hwx, hp i (le_refl _) (by omega), if_true]
      exact ih (i + 1) (w i) k (by omega) (fun j h1 h2 => hw j (by omega) (by omega))
        (fun j h1 h2 => hp j (by omega) (by omega))
        (by rw [show i + 1 + k = i + (k + 1) by omega]; exact hn)

/-- Every completion of the rounds: OK, and within the rounds to go. -/
theorem mrLoop_cases (c : Config) (n m s : Nat) (draw : Nat → Option Nat) (left i last : Nat)
    (r : Completion) (h : mrLoop c n m s draw left i last = some r) :
    r.err = .ok ∧ ∃ a k, r.r = some a ∧ r.rounds = some k ∧ i ≤ k ∧ k ≤ i + left ∧
      (r.prime = true → k = i + left) ∧ (r.prime = false → mrRound c n m s a = false) ∧
      (a = last ∨ ∃ j x, draw j = some x ∧ a = drawWitness 2 (n - 2) x) := by
  induction left generalizing i last with
  | zero =>
    rw [mrLoop] at h; cases h
    exact ⟨rfl, last, i, rfl, rfl, le_refl _, le_refl _, fun _ => rfl, nofun, .inl rfl⟩
  | succ left ih =>
    rw [mrLoop] at h
    split at h
    · cases h
    · rename_i x hx
      dsimp only at h
      split at h
      · obtain ⟨h1, a, k, h2, h3, h4, h5, h6, h7, h8⟩ := ih _ _ h
        refine ⟨h1, a, k, h2, h3, by omega, by omega, fun hp => by have := h6 hp; omega, h7, ?_⟩
        rcases h8 with rfl | h8
        · exact .inr ⟨i, x, hx, rfl⟩
        · exact .inr h8
      · rename_i hf
        cases h
        exact ⟨rfl, _, i + 1, rfl, rfl, by omega, by omega, nofun,
          fun _ => by simpa using hf, .inr ⟨i, x, hx, rfl⟩⟩

theorem drawWitness_mem (lo hi x : Nat) (h : lo ≤ hi) :
    lo ≤ drawWitness lo hi x ∧ drawWitness lo hi x ≤ hi := by
  unfold drawWitness
  split
  · assumption
  · have := Nat.mod_lt x (show 0 < hi - lo + 1 by omega)
    omega

end Sys2Proof.Machine
end

