-- ==== Sys2Proof/Laws/Exec.lean ====
section
/-! SUPPORT. What each command does, once: one equation per event, one inversion lemma for all
(40_command_control.md R110 to R115). -/

namespace Sys2Proof.Machine

/-- The completion the running command makes (R114); none while an MRTEST waits for entropy (R9). -/
def completionOf (s : State) : Op → Option Completion
  | .modexp => some (modexpCompletion s.cfg (s.val .a) (s.val .e) (s.val .n))
  | .modinv => some (modinvCompletion (s.val .a) (s.val .n))
  | .mrtest => s.mrtestResult
  | .mrwit => some (mrwitCompletion s.cfg (s.val .n) (s.val .a))

/-- How many entropy answers a completion uses: one a round, for MRTEST only (R153). -/
def drawsOf (c : Completion) : Op → Nat
  | .modexp => 0
  | .modinv => 0
  | .mrtest => c.rounds.getD 0
  | .mrwit => 0

@[simp] theorem consumeDraws_zero (s : State) : s.consumeDraws 0 = s := by
  simp [State.consumeDraws]

@[simp] theorem busy_idle {s : State} (h : s.phase = .idle) : s.busy = false := by
  simp [State.busy, h]

@[simp] theorem busy_busy {s : State} {op : Op} (h : s.phase = .busy op) : s.busy = true := by
  simp [State.busy, h]

theorem busy_eq_true_iff (s : State) : s.busy = true ↔ ∃ op, s.phase = .busy op := by
  unfold State.busy
  split <;> simp_all

theorem busy_eq_false_iff (s : State) : s.busy = false ↔ s.phase = .idle := by
  unfold State.busy
  split <;> simp_all

@[simp] theorem decode_encode (i : Instr) : decode (encode i) = .ok i := by
  cases i <;> decide

/-- NOP takes and completes at once (R115). -/
theorem exec_nop_idle {s : State} (h : s.phase = .idle) :
    exec .nop s = .next ((s.takeFirst (encode .nop)).complete nopCompletion) := by
  simp only [exec, execNop, h]

theorem exec_nop_busy {s : State} {op : Op} (h : s.phase = .busy op) :
    exec .nop s = .next s.dropWrite := by
  simp only [exec, execNop, h]

/-- The take of a computing command (R110, R112). -/
theorem exec_take {s : State} (op : Op) (h : s.phase = .idle) :
    exec op.instr s = .next ((s.takeFirst (encode op.instr)).startCommand op) := by
  cases op <;> simp only [exec, Op.instr, execModexp, execModinv, execMrtest, execMrwit, State.runCommand, h]

/-- The completion of the running command (R113, R114). -/
theorem exec_complete {s : State} {op : Op} {c : Completion} (h : s.phase = .busy op)
    (hc : completionOf s op = some c) :
    exec op.instr s = .next ((s.consumeDraws (drawsOf c op)).complete c) := by
  cases op <;>
    simp only [completionOf, Option.some.injEq] at hc <;>
    simp [exec, Op.instr, execModexp, execModinv, execMrtest, execMrwit, State.runCommand, h,
      State.finishMrtest, drawsOf, hc]

/-- An MRTEST that waits for entropy stays as it is (R9, R152). -/
theorem exec_wait {s : State} {op : Op} (h : s.phase = .busy op) (hc : completionOf s op = none) :
    exec op.instr s = .next s := by
  cases op <;> simp only [completionOf, reduceCtorEq] at hc
  simp [exec, Op.instr, execMrtest, State.runCommand, h, State.finishMrtest, hc]

/-- A command issued while another runs is dropped (R67). -/
theorem exec_other {s : State} {op running : Op} (h : s.phase = .busy running) (hne : running ≠ op) :
    exec op.instr s = .next s.dropWrite := by
  cases op <;> cases running <;>
    first
    | exact absurd rfl hne
    | simp [exec, Op.instr, execModexp, execModinv, execMrtest, execMrwit, State.runCommand, h]

/-- A command is NOP or a computing command. -/
theorem instr_cases (i : Instr) : i = .nop ∨ ∃ op : Op, i = op.instr := by
  cases i
  · exact .inl rfl
  · exact .inr ⟨.modexp, rfl⟩
  · exact .inr ⟨.modinv, rfl⟩
  · exact .inr ⟨.mrtest, rfl⟩
  · exact .inr ⟨.mrwit, rfl⟩

/-- Everything a command can do when it answers a next state. -/
theorem exec_cases {i : Instr} {s t : State} (h : exec i s = .next t) :
    (i = .nop ∧ s.phase = .idle ∧ t = (s.takeFirst (encode .nop)).complete nopCompletion) ∨
    (∃ op, i = op.instr ∧ s.phase = .idle ∧
      t = (s.takeFirst (encode op.instr)).startCommand op) ∨
    (∃ op c, i = op.instr ∧ s.phase = .busy op ∧ completionOf s op = some c ∧
      t = (s.consumeDraws (drawsOf c op)).complete c) ∨
    (i = .mrtest ∧ s.phase = .busy .mrtest ∧ s.mrtestResult = none ∧ t = s) ∨
    (∃ op, s.phase = .busy op ∧ i ≠ op.instr ∧ t = s.dropWrite) := by
  rcases instr_cases i with rfl | ⟨op, rfl⟩
  · cases hp : s.phase with
    | idle => rw [exec_nop_idle hp] at h; cases h; exact .inl ⟨rfl, rfl, rfl⟩
    | busy op =>
      rw [exec_nop_busy hp] at h; cases h
      exact .inr (.inr (.inr (.inr ⟨op, rfl, by cases op <;> exact nofun, rfl⟩)))
  · cases hp : s.phase with
    | idle => rw [exec_take op hp] at h; cases h; exact .inr (.inl ⟨op, rfl, rfl, rfl⟩)
    | busy running =>
      by_cases hop : running = op
      · subst hop
        cases hc : completionOf s running with
        | none =>
          rw [exec_wait hp hc] at h; cases h
          cases running <;> simp only [completionOf, reduceCtorEq] at hc
          exact .inr (.inr (.inr (.inl ⟨rfl, rfl, hc, rfl⟩)))
        | some c =>
          rw [exec_complete hp hc] at h; cases h
          exact .inr (.inr (.inl ⟨running, c, rfl, rfl, hc, rfl⟩))
      · rw [exec_other hp hop] at h; cases h
        exact .inr (.inr (.inr (.inr ⟨running, rfl, by cases op <;> cases running <;> simp_all [Op.instr], rfl⟩)))

/-- Every command answers a next state in every state (00_scope.md R17, 60_exceptions.md R170). -/
theorem exec_next (i : Instr) (s : State) : ∃ t, exec i s = .next t := by
  cases i
  · unfold exec execNop; dsimp only; split <;> exact ⟨_, rfl⟩
  all_goals exact ⟨_, rfl⟩

theorem waitsForEntropy_iff (s : State) :
    s.waitsForEntropy = true ↔ s.phase = .busy .mrtest ∧ s.mrtestResult = none := by
  unfold State.waitsForEntropy
  split
  · simp_all
  · rename_i h
    constructor
    · exact nofun
    · rintro ⟨h1, _⟩; exact absurd h1 h

/-- A busy engine that does not wait has its completion. -/
theorem completionOf_isSome {s : State} {op : Op} (h : s.phase = .busy op)
    (hw : s.waitsForEntropy = false) : ∃ c, completionOf s op = some c := by
  cases op with
  | mrtest =>
    cases hr : s.mrtestResult with
    | none => rw [(waitsForEntropy_iff s).mpr ⟨h, hr⟩] at hw; cases hw
    | some c => exact ⟨c, hr⟩
  | _ => exact ⟨_, rfl⟩

/-- A live entropy source always has an answer (00_scope.md R9). -/
theorem draw_live {s : State} (h : s.cfg.entropyLive = true) (i : Nat) : ∃ x, s.draw i = some x := by
  unfold State.draw
  split
  · exact ⟨_, rfl⟩
  · rw [if_pos h]; exact ⟨_, rfl⟩

theorem mrLoop_live (c : Config) (n m s : Nat) (draw : Nat → Option Nat) (hd : ∀ i, ∃ x, draw i = some x)
    (left i last : Nat) : ∃ r, mrLoop c n m s draw left i last = some r := by
  induction left generalizing i last with
  | zero => exact ⟨_, rfl⟩
  | succ left ih =>
    obtain ⟨x, hx⟩ := hd i
    rw [mrLoop, hx]
    dsimp only
    split
    · exact ih _ _
    · exact ⟨_, rfl⟩

/-- With a live entropy source no MRTEST waits (R9, R156). -/
theorem not_waits_live {s : State} (h : s.cfg.entropyLive = true) : s.waitsForEntropy = false := by
  rw [Bool.eq_false_iff]
  intro hw
  obtain ⟨_, hr⟩ := (waitsForEntropy_iff s).mp hw
  unfold State.mrtestResult mrtestCompletion at hr
  split at hr
  · cases hr
  · cases hr
  · split at hr
    · cases hr
    · obtain ⟨r, hr'⟩ := mrLoop_live s.cfg (s.val .n) _ _ s.draw (draw_live h) s.iter.toNat 0 0
      rw [hr'] at hr; cases hr

/-- The words the host reads after a reset (R39). -/
@[simp] theorem blockReset_statusWord (s : State) : s.blockReset.statusWord = 0#32 := by
  show ((((((0#20 ++ 0#4) ++ 0#4) ++ 0#1) ++ 0#1) ++ 0#1) ++ 0#1 : BitVec 32) = 0#32
  decide

@[simp] theorem blockReset_ctrlWord (s : State) : s.blockReset.ctrlWord = 0#32 := by
  show (0#31 ++ 0#1 : BitVec 32) = 0#32
  decide

@[simp] theorem blockReset_intstatWord (s : State) : s.blockReset.intstatWord = 0#32 := by
  show (0#31 ++ 0#1 : BitVec 32) = 0#32
  decide

/-- An MRTEST that waits is one that draws witnesses: an odd candidate of 5 or more, ITER not 0 (R153). -/
theorem drawsWitnesses_of_waits {s : State} (h : s.waitsForEntropy = true) : s.drawsWitnesses = true := by
  obtain ⟨hp, hr⟩ := (waitsForEntropy_iff s).mp h
  rw [State.drawsWitnesses, hp]
  refine decide_eq_true ?_
  unfold State.mrtestResult mrtestCompletion mrPre at hr
  split at hr
  · cases hr
  · cases hr
  · rename_i heq
    split at heq
    · cases heq
    · split at heq
      · cases heq
      · split at hr
        · cases hr
        · refine ⟨by omega, by omega, fun hi => ?_⟩
          rw [hi] at hr
          cases hr

end Sys2Proof.Machine
end

