-- ==== Sys2Proof/Laws/Bus.lean ====
section
/-! SUPPORT. What one host transaction can do (20_memory.md R64 to R70), and everything one host line
can do. -/

namespace Sys2Proof.Machine

/-- Everything a write transaction can do when it answers a next state, and at which offset. -/
theorem memWrite_cases {size : Size} {off : Offset} {w : Word} {s t : State}
    (h : memWrite size off w s = .next t) :
    (∃ p, t = s.respond p) ∨
    (s.busy = true ∧ size = .b32 ∧ (off = offCmd ∨ off = offIter ∨ ∃ (x : OperandReg) (i : Nat),
        i < s.cfg.words ∧ off = BitVec.ofNat 12 (x.offset + 4 * i)) ∧
      t = (s.respond .writeOkay).dropWrite) ∨
    (ctrlSrst w = true ∧ size = .b32 ∧ off = offCtrl ∧ t = (s.respond .writeOkay).blockReset) ∨
    (size = .b32 ∧ off = offCtrl ∧ t = { s.respond .writeOkay with irqEn := ctrlIrqEn w }) ∨
    (size = .b32 ∧ off = offIntstat ∧ t = (s.respond .writeOkay).writeIntstat w) ∨
    (s.busy = false ∧ size = .b32 ∧ off = offIter ∧ t = { s.respond .writeOkay with iter := iterField w }) ∨
    (s.busy = false ∧ ∃ x i, i < s.cfg.words ∧ size = .b32 ∧ off = BitVec.ofNat 12 (x.offset + 4 * i) ∧
      t = (s.respond .writeOkay).setOperandWord x i w) ∨
    (s.busy = false ∧ size = .b32 ∧ off = offCmd ∧
      ∃ i, decode w = .ok i ∧ exec i (s.respond .writeOkay) = .next t) ∨
    (s.busy = false ∧ size = .b32 ∧ off = offCmd ∧ (∃ why, decode w = .error why) ∧
      t = (s.respond .writeOkay).takeIllegal w) := by
  have hb : (s.respond .writeOkay).busy = s.busy := rfl
  unfold memWrite at h
  split at h
  case isFalse => cases h; exact .inl ⟨_, rfl⟩
  case isTrue hwf =>
  obtain ⟨hs, ha⟩ : size = .b32 ∧ aligned off = true := by simpa [wellFormedAccess] using hwf
  cases hl : locate s.cfg off with
  | cmd =>
    have ho := locate_eq_control (k := 2) ha (by decide) hl
    simp only [hl, writeLoc, writeCmd, hb] at h
    split at h
    · cases h; exact .inr (.inl ⟨‹_›, hs, .inl ho, rfl⟩)
    · rename_i hnb
      have hnb' : s.busy = false := by simpa using hnb
      split at h
      · rename_i i hi
        exact .inr (.inr (.inr (.inr (.inr (.inr (.inr (.inl ⟨hnb', hs, ho, i, hi, h⟩)))))))
      · rename_i why hw
        cases h
        exact .inr (.inr (.inr (.inr (.inr (.inr (.inr (.inr ⟨hnb', hs, ho, ⟨why, hw⟩, rfl⟩)))))))
  | ctrl =>
    have ho := locate_eq_control (k := 4) ha (by decide) hl
    simp only [hl, writeLoc, State.writeCtrl] at h
    split at h
    · cases h; exact .inr (.inr (.inl ⟨‹_›, hs, ho, rfl⟩))
    · cases h; exact .inr (.inr (.inr (.inl ⟨hs, ho, rfl⟩)))
  | intstat =>
    simp only [hl, writeLoc] at h
    cases h; exact .inr (.inr (.inr (.inr (.inl ⟨hs, locate_eq_control (k := 5) ha (by decide) hl, rfl⟩))))
  | iter =>
    have ho := locate_eq_control (k := 6) ha (by decide) hl
    simp only [hl, writeLoc, State.writeIter, hb] at h
    split at h
    · cases h; exact .inr (.inl ⟨‹_›, hs, .inr (.inl ho), rfl⟩)
    · cases h
      exact .inr (.inr (.inr (.inr (.inr (.inl ⟨by simpa using ‹¬s.busy = true›, hs, ho, rfl⟩)))))
  | operand x i =>
    have hi := locate_operand_lt hl
    have ho := locate_eq_operand ha hl
    simp only [hl, writeLoc, State.writeOperand, hb] at h
    split at h
    · cases h; exact .inr (.inl ⟨‹_›, hs, .inr (.inr ⟨x, i, hi, ho⟩), rfl⟩)
    · cases h
      exact .inr (.inr (.inr (.inr (.inr (.inr (.inl
        ⟨by simpa using ‹¬s.busy = true›, x, i, hi, hs, ho, rfl⟩))))))
  | _ => simp only [hl, writeLoc] at h; cases h; exact .inl ⟨_, rfl⟩

/-- A read transaction changes only the port's answer and the count of free values (R69). -/
theorem memRead_eq (size : Size) (off : Offset) (s : State) :
    ∃ p f, memRead size off s = { s with resp := some p, freeCount := f } := by
  unfold memRead State.readAccess State.respond
  split
  · split
    · split <;> exact ⟨_, _, rfl⟩
    · exact ⟨_, _, rfl⟩
  · exact ⟨_, _, rfl⟩

theorem writeLoc_next (l : Loc) (w : Word) (s : State) : ∃ t, writeLoc l w s = .next t := by
  cases l with
  | cmd =>
    unfold writeLoc writeCmd
    dsimp only
    split
    · exact ⟨_, rfl⟩
    · split
      · exact exec_next _ _
      · exact ⟨_, rfl⟩
  | _ => exact ⟨_, rfl⟩

/-- No write faults (00_scope.md R17). -/
theorem memWrite_next (size : Size) (off : Offset) (w : Word) (s : State) :
    ∃ t, memWrite size off w s = .next t := by
  unfold memWrite
  split
  · exact writeLoc_next _ _ _
  · exact ⟨_, rfl⟩

/-- Everything one host line can do when it answers a next state: a write transaction, or only the
port's answer, the count of free values, the host's position and its temporaries. -/
theorem hostOp_cases {op : HostOp} {s t : State} (h : hostOp op s = .next t) :
    (∃ size off w, s.writeOf op = some (size, off, w) ∧ memWrite size off w s = .next t) ∨
    (∃ p f pc m, t = { s with
      resp := p, freeCount := f, host := { s.host with pc := pc, temps := m } } ∧
      (m = s.host.temps ∨ ∃ k v, m = tempSet s.host.temps k v)) := by
  cases op with
  | wr off src => exact .inl ⟨_, _, _, rfl, h⟩
  | rd off k =>
    simp only [hostOp, State.readInto] at h
    cases h
    obtain ⟨p, f, he⟩ := memRead_eq .b32 off s
    refine .inr ⟨some p, f, s.host.pc,
      tempSet s.host.temps k (memRead .b32 off s).lastData.toNat, ?_, .inr ⟨k, _, rfl⟩⟩
    rw [State.setTemp, he]
  | label l => simp only [hostOp] at h; cases h; exact .inr ⟨_, _, _, _, rfl, .inl rfl⟩
  | bnz k mask l =>
    simp only [hostOp] at h
    cases h
    split <;> exact .inr ⟨_, _, _, _, rfl, .inl rfl⟩
  | bz k mask l =>
    simp only [hostOp] at h
    cases h
    split <;> exact .inr ⟨_, _, _, _, rfl, .inl rfl⟩
  | compute k x =>
    simp only [hostOp] at h; cases h
    exact .inr ⟨_, _, _, _, rfl, .inr ⟨k, _, rfl⟩⟩
  | busRead addr size =>
    simp only [hostOp] at h
    split at h
    · cases h; exact .inr ⟨_, _, _, _, rfl, .inl rfl⟩
    · rename_i off hoff
      cases h
      obtain ⟨p, f, he⟩ := memRead_eq size off s
      exact .inr ⟨some p, f, s.host.pc, s.host.temps, he, .inl rfl⟩
  | busWrite addr size w =>
    simp only [hostOp] at h
    split at h
    · cases h; exact .inr ⟨_, _, _, _, rfl, .inl rfl⟩
    · rename_i off hoff
      exact .inl ⟨size, off, w, by simp [State.writeOf, hoff], h⟩

theorem hostOp_next (op : HostOp) (s : State) : ∃ t, hostOp op s = .next t := by
  cases op with
  | wr off src => exact memWrite_next _ _ _ _
  | busRead addr size => unfold hostOp; dsimp only; split <;> exact ⟨_, rfl⟩
  | busWrite addr size w =>
    unfold hostOp; dsimp only; split
    · exact ⟨_, rfl⟩
    · exact memWrite_next _ _ _ _
  | _ => exact ⟨_, rfl⟩

/-- Everything one step can do: a reset, a completion, nothing, or one host line. -/
theorem step_cases {s t : State} (h : step s = .next t) :
    (s.rstAsserted = true ∧ t = s.tick.blockReset) ∨
    (s.rstAsserted = false ∧ ∃ op c, s.phase = .busy op ∧ completionOf s.tick op = some c ∧
      t = (s.tick.consumeDraws (drawsOf c op)).complete c) ∨
    (s.rstAsserted = false ∧ s.host.next = none ∧ t = s.tick) ∨
    (s.rstAsserted = false ∧ s.tick.engineTurn = false ∧
      ∃ op, s.host.next = some op ∧ hostOp op s.tick.advance = .next t) := by
  unfold step stepMove at h
  split at h
  · cases h; exact .inl ⟨‹_›, rfl⟩
  · rename_i hr
    have hr' : s.rstAsserted = false := by simpa using hr
    split at h
    · rename_i he
      simp only [State.engineTurn, Bool.and_eq_true, Bool.not_eq_true'] at he
      obtain ⟨⟨hb, hw⟩, _⟩ := he
      obtain ⟨op, hop⟩ := (busy_eq_true_iff _).mp hb
      obtain ⟨c, hc⟩ := completionOf_isSome hop hw
      rw [engineMove, hop] at h
      dsimp only at h
      rw [exec_complete hop hc] at h
      cases h
      exact .inr (.inl ⟨hr', op, c, hop, hc, rfl⟩)
    · rename_i he
      unfold hostMove at h
      split at h
      · cases h; exact .inr (.inr (.inl ⟨hr', ‹_›, rfl⟩))
      · exact .inr (.inr (.inr ⟨hr', by simpa using he, _, ‹_›, h⟩))

/-- Engine's turn: its completion is the step. -/
theorem step_engine {s : State} {op : Op} {c : Completion} (hr : s.rstAsserted = false)
    (ht : s.tick.engineTurn = true) (hp : s.phase = .busy op) (hc : completionOf s.tick op = some c) :
    step s = .next ((s.tick.consumeDraws (drawsOf c op)).complete c) := by
  unfold step stepMove
  rw [if_neg (by simp [hr]), if_pos ht, engineMove, show s.tick.phase = .busy op from hp]
  exact exec_complete hp hc

/-- On the host's turn, a line that makes a 32-bit write is what `hostWrites` says. -/
theorem hostWrites_of {s : State} {op : HostOp} {off : Offset} {w : Word} (hr : s.rstAsserted = false)
    (ht : s.tick.engineTurn = false) (hn : s.host.next = some op)
    (hw : s.tick.advance.writeOf op = some (.b32, off, w)) : s.hostWrites off w := by
  refine ⟨by simpa [State.rstAsserted] using hr, ht, op, hn, ?_⟩
  cases op <;> exact hw

/-- Host's turn: its next line is the step. -/
theorem step_host {s : State} {op : HostOp} (hr : s.rstAsserted = false)
    (ht : s.tick.engineTurn = false) (hn : s.host.next = some op) :
    step s = hostOp op s.tick.advance := by
  unfold step stepMove
  rw [if_neg (by simp [hr]), if_neg (by simp [ht]), hostMove, show s.tick.host.next = some op from hn]

end Sys2Proof.Machine
end

