-- ==== Sys2Proof/Laws/PerInstr.lean ====
section
/-! SUPPORT. Per-command facts, one lemma per constructor (LAWS.json). -/

namespace Sys2Proof.Laws.TableWord

/-- The opcode table's word of a command, numbered as the table numbers it, decodes to it, and no
other 4-bit opcode with RSV = 0 does (30_encoding.md R94). -/
def Statement (i : Instr) : Prop :=
  decodeTableWord 32 (encode i).toNat = some i ∧
    ∀ k : Fin 16, decodeTableWord 32 k.val = some i → k.val = (encode i).toNat

theorem nop : Statement .nop := by unfold Statement; decide
theorem modexp : Statement .modexp := by unfold Statement; decide
theorem modinv : Statement .modinv := by unfold Statement; decide
theorem mrtest : Statement .mrtest := by unfold Statement; decide
theorem mrwit : Statement .mrwit := by unfold Statement; decide

end Sys2Proof.Laws.TableWord
end

