-- ==== Sys2Proof/Laws/Temps.lean ====
section
/-! SUPPORT. The host's temporaries: a read after a write, and the canonical form kept. -/

namespace Sys2Proof.Machine

theorem tempsWf_iff (m : List (Nat × Int)) :
    tempsWf m = true ↔ (m.Pairwise fun p q => p.1 < q.1) ∧ ∀ p ∈ m, p.2 ≠ 0 := by
  simp [tempsWf]

theorem mem_tempInsert {m : List (Nat × Int)} {t : Nat} {v : Int} {p : Nat × Int}
    (h : p ∈ tempInsert m t v) : p = (t, v) ∨ p ∈ m := by
  induction m with
  | nil => simpa [tempInsert] using h
  | cons q rest ih =>
    obtain ⟨k, u⟩ := q
    simp only [tempInsert] at h
    split at h
    · simpa using h
    · split at h
      · simp only [List.mem_cons] at h ⊢
        rcases h with h | h
        · exact .inl h
        · exact .inr (.inr h)
      · simp only [List.mem_cons] at h ⊢
        rcases h with h | h
        · exact .inr (.inl h)
        · rcases ih h with h | h
          · exact .inl h
          · exact .inr (.inr h)

/-- A write of a temporary keeps the canonical form. -/
theorem tempSet_wf {m : List (Nat × Int)} (h : tempsWf m = true) (t : Nat) (v : Int) :
    tempsWf (tempSet m t v) = true := by
  rw [tempsWf_iff] at h ⊢
  obtain ⟨hp, hz⟩ := h
  unfold tempSet
  split
  · exact ⟨hp.filter _, fun p hm => hz p (List.mem_of_mem_filter hm)⟩
  · rename_i hv
    refine ⟨?_, fun p hm => ?_⟩
    · induction m with
      | nil => simp [tempInsert]
      | cons q rest ih =>
        obtain ⟨k, u⟩ := q
        rw [List.pairwise_cons] at hp
        simp only [tempInsert]
        split
        · rename_i hlt
          refine List.pairwise_cons.mpr ⟨fun p hm => ?_, List.pairwise_cons.mpr hp⟩
          rcases List.mem_cons.mp hm with rfl | hm
          · exact hlt
          · exact Nat.lt_trans hlt (hp.1 p hm)
        · split
          · rename_i heq
            subst heq
            exact List.pairwise_cons.mpr hp
          · rename_i h1 h2
            refine List.pairwise_cons.mpr ⟨fun p hm => ?_, ih hp.2 fun p hm => hz p (List.mem_cons_of_mem _ hm)⟩
            rcases mem_tempInsert hm with rfl | hm
            · show k < t; omega
            · exact hp.1 p hm
    · rcases mem_tempInsert hm with rfl | hm
      · exact hv
      · exact hz p hm

theorem tempGet_of_lt {m : List (Nat × Int)} {t : Nat} (h : ∀ p ∈ m, t < p.1) : tempGet m t = 0 := by
  induction m with
  | nil => rfl
  | cons q rest ih =>
    obtain ⟨k, u⟩ := q
    have : t < k := h (k, u) List.mem_cons_self
    simp only [tempGet]
    rw [if_neg (by omega)]
    exact ih fun p hm => h p (List.mem_cons_of_mem _ hm)

/-- A temporary reads what was written, and the others read as before. -/
theorem tempGet_tempSet {m : List (Nat × Int)} (h : tempsWf m = true) (t u : Nat) (v : Int) :
    tempGet (tempSet m t v) u = if u = t then v else tempGet m u := by
  have hp := ((tempsWf_iff m).mp h).1
  clear h
  unfold tempSet
  split
  · rename_i hv
    subst hv
    induction m with
    | nil => simp [tempGet]
    | cons q rest ih =>
      obtain ⟨k, x⟩ := q
      rw [List.pairwise_cons] at hp
      have ih' := ih hp.2
      by_cases hk : k = t
      · subst hk
        rw [List.filter_cons_of_neg (by simp)]
        rw [ih']
        by_cases hu : u = k
        · simp [hu]
        · rw [if_neg hu, if_neg hu]; simp only [tempGet]; rw [if_neg (Ne.symm hu)]
      · rw [List.filter_cons_of_pos (by simpa using hk)]
        simp only [tempGet]
        by_cases hu : k = u
        · subst hu; rw [if_pos rfl, if_neg hk, if_pos rfl]
        · rw [if_neg hu, if_neg hu]; exact ih'
  · induction m with
    | nil =>
      simp only [tempInsert, tempGet]
      by_cases hu : u = t
      · subst hu; simp
      · rw [if_neg (Ne.symm hu), if_neg hu]
    | cons q rest ih =>
      obtain ⟨k, x⟩ := q
      rw [List.pairwise_cons] at hp
      have ih' := ih hp.2
      simp only [tempInsert]
      split
      · simp only [tempGet]
        by_cases hu : u = t
        · subst hu; simp
        · rw [if_neg (Ne.symm hu), if_neg hu]
      · split
        · rename_i heq
          subst heq
          simp only [tempGet]
          by_cases hu : u = t
          · subst hu; simp
          · rw [if_neg (Ne.symm hu), if_neg hu, if_neg (Ne.symm hu)]
        · rename_i h1 h2
          simp only [tempGet]
          by_cases hku : k = u
          · subst hku; rw [if_pos rfl, if_neg (by omega), if_pos rfl]
          · rw [if_neg hku, if_neg hku]; exact ih'

/-- The bits of `t AND mask` are the bits set in both (R98). -/
theorem testBit_andMask (v : Int) (mask i : Nat) :
    (andMask v mask).testBit i = (v.testBit i && mask.testBit i) := by
  cases v with
  | ofNat k => simp [andMask, Int.testBit]
  | negSucc k => simp [andMask, Int.testBit]; cases k.testBit i <;> cases mask.testBit i <;> rfl

/-- A branch test holds when some bit is set in both. -/
theorem maskedNonzero_iff (v : Int) (mask : Nat) :
    maskedNonzero v mask = true ↔ ∃ i, v.testBit i = true ∧ mask.testBit i = true := by
  rw [maskedNonzero, decide_eq_true_eq]
  constructor
  · intro h
    obtain ⟨i, hi⟩ := Nat.exists_testBit_of_ne_zero h
    rw [testBit_andMask, Bool.and_eq_true] at hi
    exact ⟨i, hi⟩
  · rintro ⟨i, h1, h2⟩ h0
    have := testBit_andMask v mask i
    simp [h0, h1, h2] at this

end Sys2Proof.Machine
end

