-- ==== Sys2Proof/Tests/Slice0.lean ====
section
/-! SUPPORT. The model's own tests, one step each, with results from 95_test_vectors.md or from the
rule cited; and for each statement with hypotheses a concrete case that meets them (`witness_…`). -/

namespace Sys2Proof.Tests

open Sys2Proof.Machine

/-- OPW 64 (the least width), so that tests stay small; form `f`. -/
def small (f : ExpForm) : Config := { opwSel := 0, expForm := f, base := 0x40000000, entropyLive := true }

/-- The same block with a silent entropy source. -/
def quiet : Config := { small .ladder with entropyLive := false }

/-- A block that runs `op` on A, E, N, with `k` iterations and these entropy answers ready. -/
def busyState (c : Config) (op : Op) (a e n : Nat) (k : BitVec 16 := 40) (draws : List Nat := []) : State :=
  { State.resetOf c with
    a := a, e := e, n := n, iter := k, entropy := draws, phase := .busy op, cmdLast := encode op.instr }

/-- A block after reset with a host program. -/
def hostState (p : List HostOp) : State :=
  { State.resetOf (small .ladder) with host := { prog := p, pc := 0, temps := [] } }

/-- The next state of an outcome. -/
def after : Host.Outcome State Fault Refusal → Option State
  | .next t => some t
  | .fault _ => none
  | .refused _ => none

/-- R, ERR, PRIME and MR_ROUNDS after a completion. -/
def result (s : State) (i : Instr) : Option (Nat × ErrCode × Bool × BitVec 16) :=
  (after (exec i s)).map fun t => (t.valR, t.err, t.prime, t.mrRounds)

/-! ### Decoding: words written out from the fields RSV (31:4) and OPC (3:0) of R90 and R94 -/

theorem test_decode_nop : decode 0b0000000000000000000000000000_0000#32 = .ok .nop := by decide
theorem test_decode_modexp : decode 0b0000000000000000000000000000_0001#32 = .ok .modexp := by decide
theorem test_decode_modinv : decode 0b0000000000000000000000000000_0010#32 = .ok .modinv := by decide
theorem test_decode_mrtest : decode 0b0000000000000000000000000000_0011#32 = .ok .mrtest := by decide
theorem test_decode_mrwit : decode 0b0000000000000000000000000000_0100#32 = .ok .mrwit := by decide
theorem test_decode_opc5 :
    decode 0b0000000000000000000000000000_0101#32 = .error .unassignedOpcode := by decide
theorem test_decode_reserved :
    decode 0b1000000000000000000000000000_0001#32 = .error .reservedBits := by decide
theorem test_decode_bytes_little_endian : -- R63: the byte at the lowest offset is bits 7:0
    (decodeBytes [0x03, 0x00, 0x00, 0x00, 0xAA]).toOption = some (.mrtest, [0xAA]) ∧
    (decodeBytes [0x00, 0x00, 0x00, 0x03]).toOption = none := by decide
theorem test_encode_table : -- opcode_table.json, every row
    [Instr.nop, .modexp, .modinv, .mrtest, .mrwit].map (fun i => decodeTableWord 32 (encode i).toNat) =
      [some .nop, some .modexp, some .modinv, some .mrtest, some .mrwit] := by decide

/-! ### Well-formedness: an ill-formed term for each check -/

theorem test_wf_every_command : [Instr.nop, .modexp, .modinv, .mrtest, .mrwit].all Instr.wf = true := by
  decide
theorem test_wf_refuses_duplicate_label : hostProgWf [.label 1, .label 1] = false := by decide
theorem test_wf_refuses_missing_label : hostProgWf [.label 1, .bnz 0 0x1 2] = false := by decide
theorem test_wf_admits_wait : hostProgWf (Pseudo.wait 0 1) = true := by decide
theorem test_wf_refuses_wide_ldop :
    ldopWf (small .ladder) (2 ^ 64) = false ∧ ldopWf (small .ladder) (2 ^ 64 - 1) = true := by decide
theorem test_wf_refuses_ldop0_over_a_wide_value :
    ldop0Wf (2 ^ 32) = false ∧ ldop0Wf (2 ^ 32 - 1) = true := by decide

/-! ### Commands -/

theorem test_modexp_ladder : -- V-EXP-1
    result (busyState (small .ladder) .modexp 4 13 497) .modexp = some (445, .ok, false, 0) := by decide +kernel
theorem test_modexp_montgomery : -- V-EXP-1 and R131
    result (busyState (small .montgomery) .modexp 4 13 497) .modexp = some (445, .ok, false, 0) := by decide +kernel
theorem test_modinv_private_exponent : -- V-INV-1
    result (busyState (small .ladder) .modinv 17 0 3120) .modinv = some (2753, .ok, false, 0) := by decide
theorem test_modinv_no_inverse : -- V-INV-2
    result (busyState (small .ladder) .modinv 4 0 8) .modinv = some (0, .noInverse, false, 0) := by decide
theorem test_mrtest_all_strong_liars : -- V-MRT-8: three strong liars, so PRIME = 1 for a composite
    result (busyState (small .ladder) .mrtest 0 0 341 3 [4, 16, 29]) .mrtest =
      some (29, .ok, true, 3) := by decide +kernel
theorem test_mrtest_first_failure : -- V-MRT-7
    result (busyState (small .montgomery) .mrtest 0 0 341 40 [2]) .mrtest =
      some (2, .ok, false, 1) := by decide +kernel
theorem test_mrwit_fails : -- V-MRW-1
    result (busyState (small .ladder) .mrwit 2 0 341) .mrwit = some (2, .ok, false, 1) := by decide +kernel
theorem test_mrwit_strong_liar : -- V-MRW-4
    result (busyState (small .montgomery) .mrwit 7 0 25) .mrwit = some (7, .ok, true, 1) := by decide +kernel
theorem test_nop : -- V-CTL-2
    (after (memWrite .b32 offCmd 0x0 (State.resetOf (small .ladder)))).map
      (fun t => (t.statusWord, t.intstatWord, t.busy)) = some (0x00000002, 1, false) := by decide
theorem test_illegal_word : -- V-CTL-4
    (after (memWrite .b32 offCmd 0x10 (State.resetOf (small .ladder)))).map
      (fun t => (t.statusWord, t.cmdLast)) = some (0x00000102, 0x00000010) := by decide

/-! ### The bus -/

theorem test_reset_reads : -- V-CTL-1
    [0x000, 0x004, 0x00C, 0x018, 0x800].map
      (fun off => (memRead .b32 off State.reset).resp) =
      [some (.readOkay 0x4E540001), some (.readOkay 0x00000400), some (.readOkay 0),
       some (.readOkay 0x00000028), some (.readOkay 0)] := by decide +kernel
theorem test_bad_accesses : -- V-CTL-6
    (after (memWrite .b8 0x008 0x01 State.reset)).map (fun t => (t.resp, t.done)) =
      some (some .writeError, false) ∧
    (memRead .b16 0x00C State.reset).resp = some .readError ∧
    (after (memWrite .b32 0x202 0x7 State.reset)).map (fun t => (t.resp, t.a)) =
      some (some .writeError, 0) := by decide
theorem test_iter_write : -- V-CTL-9
    (after (memWrite .b32 offIter 0x12345 State.reset)).map State.iterWord = some 0x00002345 := by decide +kernel
theorem test_ctrl_write : -- V-CTL-10
    (after (memWrite .b32 offCtrl 0xFFFFFFFB State.reset)).map State.ctrlWord = some 0x00000001 := by decide +kernel
theorem test_soft_reset_wins : -- V-CTL-11
    (after (memWrite .b32 offCtrl 0x5 { State.reset with a := 9, iter := 7 })).map
      (fun t => (t.ctrlWord, t.a, t.iterWord)) = some (0, 0, 0x00000028) := by decide +kernel
theorem test_intstat_write_one_clears : -- V-CTL-12
    [0x0, 0x1].map (fun w => (after (memWrite .b32 offIntstat w
      { State.reset with doneIrq := true })).map State.intstatWord) = [some 1, some 0] := by decide
theorem test_operand_words : -- the word order example after P6 (R62)
    (after (memWrite .b32 0x204 0x11223344 { State.reset with a := 0x55667788 })).map State.a =
      some 0x1122334455667788 ∧
    wordAt 0x1122334455667788 0 = 0x55667788 := by decide +kernel

/-! ### Host lines -/

theorem test_mask_has_any_width : -- R98: a bit above bit 31 counts, in the mask and in the temporary
    maskedNonzero (2 ^ 40) (2 ^ 40) = true ∧ maskedNonzero (2 ^ 40) 0xFFFFFFFF = false := by decide
theorem test_mask_of_negative : -- log 6: -2 is ...1110 in two's complement
    maskedNonzero (-2) 0x1 = false ∧ maskedNonzero (-2) (2 ^ 40) = true := by decide
theorem test_ldop0_of_temporary : -- R99: LDOP0 N, t is one write of t at 0x600
    let h : HostAgent := { prog := Pseudo.ldop0 .n (.temp 1), pc := 0, temps := [(1, 3233)] }
    (after (step { State.reset with host := h })).map (fun t => (t.n, t.host.pc)) = some (3233, 1) := by
  decide +kernel

/-! ### What the host asks: a placed word is run by the very next step -/

theorem test_placed_word_is_taken : -- R112: MODEXP is BUSY after its take
    (after (step (State.reset.withFetchWord 32 0x1))).map (fun t => (t.phase, t.cmdLast)) =
      some (.busy .modexp, 0x00000001) := by decide

/-! ### Witnesses: for each statement with hypotheses, a concrete case that meets them all -/

/-- MODEXP of V-EXP-1 about to complete. -/
def modexpRun : State := busyState (small .ladder) .modexp 4 13 497

/-- MODEXP running while the host has a line left, with `wait` host moves before the completion. -/
def modexpWith (w : Nat) (p : List HostOp) : State :=
  { modexpRun with wait := w, host := { prog := p, pc := 0, temps := [] } }

/-- MRTEST of 5 with a silent source and the answers `draws`. -/
def silentRun (draws : List Nat) : State := busyState quiet .mrtest 0 0 5 2 draws

theorem modexpRun_inv (w : Nat) (p : List HostOp) : (modexpWith w p).Inv := by
  constructor <;>
    simp [modexpWith, modexpRun, busyState, State.resetOf, small, Config.opw, Config.words, State.busy,
      tempsWf, Op.instr]

theorem modexpRun_completes : ∃ t, step modexpRun = .next t ∧ t.phase = .idle ∧ t.done = true :=
  ⟨_, rfl, rfl, rfl⟩

theorem witness_bothResetSourcesReset :
    (0x4 : Word).getLsbD 2 = true ∧ (0xFFFFFFFF : Word).getLsbD 2 = true ∧
    State.rstN { modexpRun with rstN := [false, true] } = [false, true] := by decide

theorem witness_stepKeepsTheInvariant : ∃ t, modexpRun.Inv ∧ step modexpRun = .next t := by
  obtain ⟨t, h, _⟩ := modexpRun_completes
  exact ⟨t, modexpRun_inv 0 [], h⟩

theorem witness_stepKeepsTheConfiguration : ∃ t, step State.reset = .next t := ⟨_, rfl⟩

theorem witness_illegalWordCompletesAtOnce :
    5 ≤ ((0x5 : Word).extractLsb' 0 4).toNat ∧ 5 ≤ ((0xF : Word).extractLsb' 0 4).toNat ∧
    (0x10 : Word).extractLsb' 4 28 ≠ 0 ∧ (0x80000000 : Word).extractLsb' 4 28 ≠ 0 ∧
    State.reset.phase = .idle ∧ modexpRun.busy = true := by decide

theorem witness_nopCompletesWithinItsTake :
    State.reset.phase = .idle ∧ State.phase { State.reset with irqEn := true } = .idle ∧
    modexpRun.busy = true := by decide

theorem witness_stepRunsTheDecodedCommand :
    ((hostState [.wr offCmd (.imm 0x1)]).phase = .idle ∧
      (hostState [.wr offCmd (.imm 0x1)]).rstN.head? ≠ some false ∧
      (hostState [.wr offCmd (.imm 0x1)]).host.next = some (.wr offCmd (.imm 0x1)) ∧
      decode ((hostState []).host.srcWord (.imm 0x1)) = .ok .modexp) ∧
    ((hostState [.busWrite 0x40000008 .b32 0x0]).host.next = some (.busWrite 0x40000008 .b32 0x0) ∧
      0x40000008 = (hostState []).cfg.base + 0x008 ∧ decode 0x0 = .ok .nop) ∧
    (modexpRun.phase = .busy .modexp ∧ modexpRun.rstN.head? ≠ some false ∧
      modexpRun.waitsForEntropy = false ∧ modexpRun.wait = 0 ∧
      (modexpWith 3 []).host.next = none) ∧
    decode 0x4 = .ok .mrwit := by decide

theorem witness_computingCommandIsTaken : State.reset.phase = .idle := rfl

theorem witness_completionFrame : ∃ t, modexpRun.phase = .busy .modexp ∧
    modexpRun.waitsForEntropy = false ∧ exec Op.modexp.instr modexpRun = .next t :=
  ⟨_, rfl, rfl, rfl⟩

theorem witness_modexpCompletesWithThePower :
    modexpRun.phase = .busy .modexp ∧ modexpRun.val .n ≠ 0 ∧
    (busyState (small .ladder) .modexp 5 0 1).val .n ≠ 0 ∧
    (busyState (small .ladder) .modexp 7 0 0).phase = .busy .modexp ∧
    (busyState (small .ladder) .modexp 7 0 0).val .n = 0 := by decide +kernel

theorem witness_modinvCompletesWithTheInverse :
    (busyState (small .ladder) .modinv 5 0 1).phase = .busy .modinv ∧
    (busyState (small .ladder) .modinv 5 0 1).val .n < 2 ∧
    (2 ≤ (busyState (small .ladder) .modinv 2 0 2).val .n ∧
      Nat.gcd ((busyState (small .ladder) .modinv 2 0 2).val .a)
        ((busyState (small .ladder) .modinv 2 0 2).val .n) ≠ 1) ∧
    (2 ≤ (busyState (small .ladder) .modinv 1 0 2).val .n ∧
      Nat.gcd ((busyState (small .ladder) .modinv 1 0 2).val .a)
        ((busyState (small .ladder) .modinv 1 0 2).val .n) = 1) := by decide +kernel

theorem witness_extendedGcdMeetsItsContract : (1 : Nat) ≠ 0 ∧ (17 : Nat) ≠ 0 := by decide

theorem witness_inverseIsUnique :
    (2 ≤ 2 ∧ Nat.gcd 1 2 = 1) ∧ (2 ≤ 11 ∧ Nat.gcd 14 11 = 1) := by decide

theorem witness_mrtestDecidesTrivialCandidates :
    [0, 1, 2, 3, 4].all (fun n => decide ((busyState (small .ladder) .mrtest 0 0 n).phase = .busy .mrtest ∧
      (busyState (small .ladder) .mrtest 0 0 n).val .n = n)) = true := by decide +kernel

/-- In range and odd, a round of the block decides `passesRound`. -/
theorem passes (n a : Nat) (h3 : 3 ≤ n) (ho : n % 2 = 1) (hn : n < 2 ^ 64)
    (h : mrRound (small .ladder) n (split n).1 (split n).2 a = true) : passesRound n a :=
  (mrRound_iff (small .ladder) n a h3 ho hn).mp h

theorem fails (n a : Nat) (h3 : 3 ≤ n) (ho : n % 2 = 1) (hn : n < 2 ^ 64)
    (h : mrRound (small .ladder) n (split n).1 (split n).2 a = false) : ¬ passesRound n a := fun hp => by
  rw [(mrRound_iff (small .ladder) n a h3 ho hn).mpr hp] at h; cases h

theorem passes_five (a : Nat) (h2 : 2 ≤ a) (h3 : a ≤ 3) : passesRound 5 a := by
  obtain rfl | rfl : a = 2 ∨ a = 3 := by omega
  · exact passes 5 2 (by decide) (by decide) (by decide) (by decide +kernel)
  · exact passes 5 3 (by decide) (by decide) (by decide) (by decide +kernel)

theorem witness_mrtestAllWitnessesPass :
    let s := busyState (small .ladder) .mrtest 0 0 5 2 [2, 3]
    s.phase = .busy .mrtest ∧ 5 ≤ s.val .n ∧ s.val .n % 2 = 1 ∧
    (∀ i, i < s.iter.toNat → (s.draw i).map (drawWitness 2 (s.val .n - 2)) = some (i + 2)) ∧
    ∀ i, i < s.iter.toNat → passesRound (s.val .n) (i + 2) :=
  ⟨rfl, by decide +kernel, by decide +kernel, by decide +kernel,
    fun i (hi : i < 2) => passes_five (i + 2) (by omega) (by omega)⟩

theorem witness_mrtestStopsAtTheFirstFailure : -- k = 0, the last round of ITER = 1 (V-MRT-15)
    let s := busyState (small .ladder) .mrtest 0 0 9 1 [5]
    s.phase = .busy .mrtest ∧ 5 ≤ s.val .n ∧ s.val .n % 2 = 1 ∧ 0 < s.iter.toNat ∧
    (∀ i, i ≤ 0 → (s.draw i).map (drawWitness 2 (s.val .n - 2)) = some 5) ∧
    (∀ i, i < 0 → passesRound (s.val .n) 5) ∧ ¬ passesRound (s.val .n) 5 :=
  ⟨rfl, by decide +kernel, by decide +kernel, by decide, by
    intro i hi; obtain rfl : i = 0 := by omega
    decide +kernel, fun i hi => absurd hi (by omega),
    fails 9 5 (by decide) (by decide) (by decide) (by decide +kernel)⟩

theorem witness_mrtestWaitsForEntropy : -- one answer, two rounds
    (silentRun [2]).phase = .busy .mrtest ∧ 5 ≤ (silentRun [2]).val .n ∧
    (silentRun [2]).val .n % 2 = 1 ∧ 1 < (silentRun [2]).iter.toNat ∧
    (∀ i, i < 1 → ((silentRun [2]).draw i).map (drawWitness 2 ((silentRun [2]).val .n - 2)) = some 2) ∧
    (∀ i, i < 1 → passesRound ((silentRun [2]).val .n) 2) ∧ (silentRun [2]).draw 1 = none :=
  ⟨rfl, by decide +kernel, by decide +kernel, by decide, by decide +kernel,
    fun _ _ => passes_five 2 (by decide) (by decide), rfl⟩

theorem witness_mrtestWaitsForEntropy_due :
    (silentRun [2]).wait = 0 ∧ (silentRun [2]).host.next = none := by decide

theorem witness_entropyRequestFollowsTheDraws :
    ((silentRun []).waitsForEntropy = true ∧ (silentRun []).wait = 0 ∧
      (silentRun []).host.next = none) ∧ (silentRun []).entReq = true :=
  ⟨by decide +kernel, rfl⟩

theorem witness_witnessDrawsCoverTheRange : (2 ≤ 2 ∧ 2 ≤ 2) ∧ (2 ≤ 339 ∧ 2 ≤ 339 ∧ 339 ≤ 339) := by decide

theorem witness_mrwitRunsOneRound :
    [1, 2, 0, 4].all (fun n => decide ((busyState (small .ladder) .mrwit 99 0 n).phase = .busy .mrwit ∧
      (busyState (small .ladder) .mrwit 99 0 n).val .n = n)) = true ∧
    [(3, 2), (5, 1), (5, 4)].all (fun (n, a) => decide (
      3 ≤ (busyState (small .ladder) .mrwit a 0 n).val .n ∧
      ((busyState (small .ladder) .mrwit a 0 n).val .a < 2 ∨
        (busyState (small .ladder) .mrwit a 0 n).val .n - 2 < (busyState (small .ladder) .mrwit a 0 n).val .a))) =
      true ∧
    [(5, 2), (5, 3), (9, 2)].all (fun (n, a) => decide (
      2 ≤ (busyState (small .ladder) .mrwit a 0 n).val .a ∧
      (busyState (small .ladder) .mrwit a 0 n).val .a ≤ (busyState (small .ladder) .mrwit a 0 n).val .n - 2)) =
      true := by decide +kernel

theorem witness_mrwitRounds : passesRound 5 2 ∧ passesRound 5 3 ∧ ¬ passesRound 9 2 :=
  ⟨passes_five 2 (by decide) (by decide), passes_five 3 (by decide) (by decide),
    fails 9 2 (by decide) (by decide) (by decide) (by decide +kernel)⟩

theorem witness_primePassesEveryWitness :
    5 < 2 ^ (small .montgomery).opw ∧ Nat.Prime 5 ∧ 5 ≤ 5 ∧ (1 ≤ 1 ∧ 1 ≤ 5 - 1) ∧ 1 ≤ 4 ∧ 4 ≤ 5 - 1 := by
  norm_num [small, Config.opw, Config.words]

theorem witness_mrtestNeverRejectsAPrime :
    let s := busyState (small .ladder) .mrtest 0 0 5 2 [2, 3]
    ∃ t, s.phase = .busy .mrtest ∧ (s.val .n).Prime ∧ 5 ≤ s.val .n ∧ exec .mrtest s = .next t ∧
      t.phase = .idle :=
  ⟨_, rfl, (show Nat.Prime 5 by norm_num), by decide +kernel,
    exec_complete (op := .mrtest) (c := { err := .ok, r := some 3, prime := true, rounds := some 2 }) rfl
      (by decide +kernel), rfl⟩

theorem witness_compositeVerdictIsTrue :
    let s := busyState (small .ladder) .mrwit 2 0 9
    ∃ t, s.phase = .busy .mrwit ∧ exec Op.mrwit.instr s = .next t ∧ t.phase = .idle ∧ t.err = .ok ∧
      t.prime = false := ⟨_, rfl, rfl, rfl, rfl, by decide +kernel⟩

theorem witness_resultsDependOnlyOnWhatIsRead : -- another OPW, another form, another ITER
    let s := busyState (small .ladder) .modexp 4 13 497
    let t := busyState { small .montgomery with opwSel := 1 } .modexp 4 13 497 7
    s.phase = .busy .modexp ∧ t.phase = .busy .modexp ∧ s.val .a = t.val .a ∧ s.val .e = t.val .e ∧
      s.val .n = t.val .n := by decide +kernel

theorem witness_resultsOfMrtestDependOnlyOnWhatIsRead : -- 2 and 4 = 2 + 4 mod 2 are the same witness of 5
    let s := busyState quiet .mrtest 0 0 5 2 [2, 3]
    let t := busyState { quiet with opwSel := 1 } .mrtest 9 9 5 2 [4, 3, 7]
    s.val .n = t.val .n ∧ s.iter = t.iter ∧
      (∀ i, i < s.iter.toNat → (s.draw i).map (drawWitness 2 (s.val .n - 2)) =
        (t.draw i).map (drawWitness 2 (s.val .n - 2))) ∧
      (completionOf s .mrtest).isSome = true ∧ (completionOf t .mrtest).isSome = true := by
  decide +kernel

theorem witness_badAccessGetsErrorOnly : Size.b8 ≠ .b32 ∧ Size.b64 ≠ .b32 ∧
    (0x202 : Offset).toNat % 4 ≠ 0 ∧ (0xFFF : Offset).toNat % 4 ≠ 0 := by decide

theorem witness_reservedPlaces : -- the ends of each range; index 2 = OPW/32 for OPW 64
    (0x020 ≤ (0x020 : Offset).toNat ∧ (0x1FC : Offset).toNat < 0x200 ∧ 0xA00 ≤ (0xA00 : Offset).toNat ∧
      0xA00 ≤ (0xFFC : Offset).toNat) ∧
    (0x200 ≤ (0x208 : Offset).toNat ∧ State.reset.cfg.words = 32 ∧ modexpRun.cfg.words ≤
      (0x208 : Offset).toNat % 0x200 / 4 ∧ modexpRun.cfg.words ≤ (0x9FC : Offset).toNat % 0x200 / 4) := by
  decide

theorem witness_readOnlyPlaces :
    (0x000 : Offset).toNat = 0x000 ∧ (0x004 : Offset).toNat = 0x004 ∧ (0x00C : Offset).toNat = 0x00C ∧
    (0x01C : Offset).toNat = 0x01C ∧
    (0x800 ≤ (0x800 : Offset).toNat ∧ (0x9FC : Offset).toNat < 0xA00 ∧ (0x9FC : Offset).toNat % 4 = 0) := by
  decide

theorem witness_busyWritesAreDropped : ∃ t, modexpRun.busy = true ∧ 1 < modexpRun.cfg.words ∧
    ((0x1 : Word).getLsbD 2 = false ∧ (0x4 : Word).getLsbD 2 = true) ∧ step (modexpWith 2 [.wr 0x200 (.imm 0x9)]) = .next t ∧
    t.phase = .busy .modexp ∧ t.werr = true ∧ t.a = 4 :=
  ⟨_, rfl, by decide, by decide, rfl, rfl, rfl, rfl⟩

theorem witness_readsReturnTheCurrentValue :
    (State.reset.busy = false ∧ (0x804 : Offset).toNat % 4 = 0) ∧
    (modexpRun.busy = true ∧ ∀ i, locate modexpRun.cfg offStatus ≠ .result i) ∧
    (0 < modexpRun.cfg.words ∧ 1 < modexpRun.cfg.words ∧ modexpRun.busy = true) ∧
    1 < State.reset.cfg.words ∧ modexpRun.Inv :=
  ⟨by decide, ⟨rfl, fun _ => nofun⟩, by decide, by decide, modexpRun_inv 0 []⟩

theorem witness_readsHaveNoSideEffect :
    State.reset.busy = false ∧ ∀ i, locate modexpRun.cfg offStatus ≠ .result i := ⟨rfl, fun _ => nofun⟩

theorem witness_operandWordIsWritten :
    (State.resetOf quiet).phase = .idle ∧ 1 < (State.resetOf quiet).cfg.words ∧
    0 < (State.resetOf quiet).cfg.words ∧ (0 : Nat) ≠ 1 := by decide

theorem witness_controlRegisterWrites :
    (0xFFFFFFFB : Word).getLsbD 2 = false ∧ State.reset.phase = .idle := by decide

theorem witness_windowIsPlacedAtBase : 0x3FFFFFFF < (small .ladder).base ∧
    (small .ladder).base + 0x1000 ≤ 0x40001000 := by decide

theorem witness_interruptLine :
    (∃ t, step modexpRun = .next t ∧ modexpRun.busy = true ∧ t.busy = false ∧ t.done = true) ∧
    ∃ t, step (hostState [.wr offCmd (.imm 0x1)]) = .next t ∧
      (hostState [.wr offCmd (.imm 0x1)]).busy = false ∧ t.busy = true :=
  ⟨⟨_, rfl, rfl, rfl, rfl⟩, _, rfl, rfl, rfl⟩

theorem witness_onlyCompletionsWriteResults : -- a take, a NOP, an illegal word, a reset, a completion, an idle step
    (∃ t, step (hostState [.wr offCmd (.imm 0x1)]) = .next t ∧ t.phase = .busy .modexp) ∧
    (∃ t, step (hostState [.wr offCmd (.imm 0x0)]) = .next t ∧ t.err = .ok ∧ t.done = true) ∧
    (∃ t, step (hostState [.wr offCmd (.imm 0x5)]) = .next t ∧ t.err = .illegalCmd) ∧
    (∃ t, step (modexpWith 2 [.wr offCtrl (.imm 0x4)]) = .next t ∧ t.phase = .idle ∧ t.done = false) ∧
    (∃ t, step modexpRun = .next t ∧ t.phase = .idle ∧ t.done = true) ∧
    ∃ t, step State.reset = .next t ∧ t.phase = .idle :=
  ⟨⟨_, rfl, rfl⟩, ⟨_, rfl, rfl, rfl⟩, ⟨_, rfl, rfl⟩, ⟨_, rfl, rfl, rfl⟩, modexpRun_completes, _, rfl, rfl⟩

theorem witness_hostWrites : (hostState [.wr offCmd (.imm 0x1)]).hostWrites offCmd 0x1 ∧
    (hostState [.busWrite 0x40000010 .b32 0x4]).resets ∧ State.resets { modexpRun with rstN := [false] } :=
  ⟨⟨nofun, rfl, _, rfl, rfl⟩, .inr ⟨0x4, by decide, nofun, rfl, _, rfl, by decide⟩, .inl rfl⟩

theorem witness_pendingInterruptIsKept :
    ∃ t, step { hostState [.wr offIntstat (.imm 0x1)] with doneIrq := true } = .next t ∧ t.doneIrq = false :=
  ⟨_, rfl, by decide⟩

theorem witness_writeErrorIsSticky : -- a dropped write; a NOP, a MODEXP and a reset that clear WERR
    (∃ t, step (modexpWith 2 [.wr 0x018 (.imm 0x9)]) = .next t ∧
      (modexpWith 2 [.wr 0x018 (.imm 0x9)]).werr = false ∧ t.werr = true) ∧
    (∃ t, step { hostState [.wr offCmd (.imm 0x0)] with werr := true } = .next t ∧ t.werr = false) ∧
    (∃ t, step { hostState [.wr offCmd (.imm 0x1)] with werr := true } = .next t ∧ t.werr = false) ∧
    ∃ t, step { modexpWith 2 [.wr offCtrl (.imm 0x4)] with werr := true } = .next t ∧ t.werr = false :=
  ⟨⟨_, rfl, rfl, rfl⟩, ⟨_, rfl, rfl⟩, ⟨_, rfl, rfl⟩, _, rfl, rfl⟩

theorem witness_runningCommandEnds :
    ((modexpWith 3 [.label 0]).phase = .busy .modexp ∧ (modexpWith 3 [.label 0]).rstN = []) ∧
    ((busyState (small .ladder) .mrtest 0 0 9).phase = .busy .mrtest ∧
      (busyState (small .ladder) .mrtest 0 0 9).cfg.entropyLive = true) ∧
    ((silentRun [2, 3]).phase = .busy .mrtest ∧ (silentRun [2, 3]).waitsForEntropy = false ∧
      (silentRun [2, 3]).rstN = []) := by decide +kernel

theorem witness_finalStateIsKept : -- a program at its end, and a host stuck at WR 0x200, t with t = 2^32
    (State.reset.final ∧ State.reset.rstN.head? ≠ some false) ∧
    State.final { hostState [.wr 0x200 (.temp 1)] with
      host := { prog := [.wr 0x200 (.temp 1)], pc := 0, temps := [(1, 2 ^ 32)] } } := by decide

theorem witness_silentEntropyHangs :
    ((silentRun []).phase = .busy .mrtest ∧ (silentRun []).cfg.entropyLive = false ∧
      (silentRun []).entropy = [] ∧ 5 ≤ (silentRun []).val .n ∧ (silentRun []).val .n % 2 = 1 ∧
      (silentRun []).iter ≠ 0) ∧
    (silentRun []).waitsForEntropy = true ∧ (after (step (silentRun []))).isSome = true := by decide +kernel

theorem witness_ldopLoadsTheValue :
    let s := hostState (Pseudo.ldop (small .ladder) .n (2 ^ 64 - 1))
    s.phase = .idle ∧ s.rstN = [] ∧ 2 ^ 64 - 1 < 2 ^ s.cfg.opw ∧
    s.host.prog = [] ++ Pseudo.ldop s.cfg .n (2 ^ 64 - 1) ++ [] ∧ s.host.pc = List.length ([] : List HostOp) := by
  decide +kernel

theorem witness_ldop0LoadsTheValue : -- an immediate, and the largest 32-bit word in a temporary
    let s := hostState (Pseudo.ldop0 .a (.imm 72))
    let t : State := { s with
      host := { prog := Pseudo.ldop0 .a (.temp 1), pc := 0, temps := [(1, 2 ^ 32 - 1)] } }
    (s.phase = .idle ∧ s.rstN.head? ≠ some false ∧ s.val .a < 2 ^ 32 ∧
      s.host.prog = [] ++ Pseudo.ldop0 .a (.imm 72) ++ [] ∧ s.host.pc = List.length ([] : List HostOp)) ∧
    t.val .a < 2 ^ 32 ∧ (0 ≤ tempGet t.host.temps 1 ∧ tempGet t.host.temps 1 < 2 ^ 32) ∧
      t.host.prog = [] ++ Pseudo.ldop0 .a (.temp 1) ++ [] := by decide +kernel

theorem witness_hostReadFillsItsTemporary :
    let s := hostState [.rd offStatus 3]
    s.rstN.head? ≠ some false ∧ s.tick.engineTurn = false ∧ s.host.next = some (.rd offStatus 3) ∧
    tempsWf s.host.temps = true ∧ (0 : Temp) ≠ 3 := by decide

theorem witness_hostBranchesFollowTheirTest :
    let s := hostState [.bnz 3 0x1 7, .label 7]
    let t := hostState [.bz 3 0x1 7, .label 7]
    (s.rstN.head? ≠ some false ∧ s.tick.engineTurn = false ∧ labelPos s.host.prog 7 = some 1 ∧
      s.host.next = some (.bnz 3 0x1 7)) ∧
    t.tick.engineTurn = false ∧ labelPos t.host.prog 7 = some 1 ∧ t.host.next = some (.bz 3 0x1 7) := by
  decide

theorem witness_branchTests : -- a common bit above bit 31, and none
    (∃ i, Int.testBit (2 ^ 40) i = true ∧ Nat.testBit (2 ^ 40) i = true) ∧
    ¬ ∃ i, Int.testBit 0 i = true ∧ Nat.testBit 0x1 i = true :=
  ⟨⟨40, by decide +kernel⟩, by
    rintro ⟨i, h, _⟩
    rw [show Int.testBit 0 i = Nat.testBit 0 i from rfl, Nat.zero_testBit] at h
    cases h⟩

end Sys2Proof.Tests
end

section
/-! PROOFS. The statements on 00_scope.md. First the window, the operands, the totality of a step and
what every step keeps; then a command on its bus write, the independence of EXP_FORM, and MRTEST on an
entropy source that does not answer. -/

namespace Sys2Proof.Machine

/-! ## The window at BASE (R8, R60) -/

theorem offsetOf_base_add (c : Config) (off : Offset) : offsetOf c (c.base + off.toNat) = some off := by
  have := off.isLt
  rw [offsetOf, if_pos (by omega), Nat.add_sub_cancel_left, BitVec.ofNat_toNat, BitVec.setWidth_eq]

theorem offsetOf_outside {c : Config} {addr : Nat} (h : addr < c.base ∨ c.base + 0x1000 ≤ addr) :
    offsetOf c addr = none :=
  if_neg (by omega)

/-! ## Bytes of an operand (R63) -/

theorem byteAt_eq_extractLsb'_wordAt (v k : Nat) {j : Nat} (h : j < 4) :
    byteAt v (4 * k + j) = (wordAt v k).extractLsb' (8 * j) 8 := by
  apply BitVec.eq_of_getLsbD_eq
  intro b hb
  rw [BitVec.getLsbD_extractLsb', testBit_eq_getLsbD_wordAt _ _ _ (by omega), byteAt,
    BitVec.getLsbD_ofNat, Nat.testBit_div_two_pow]
  congr 2
  omega

/-! ## Every step answers (R17, R170) -/

theorem engineMove_next (s : State) : ∃ t, engineMove s = .next t := by
  unfold engineMove
  split
  · exact ⟨_, rfl⟩
  · exact exec_next _ _

theorem hostMove_next (s : State) : ∃ t, hostMove s = .next t := by
  unfold hostMove
  split
  · exact ⟨_, rfl⟩
  · exact hostOp_next _ _

theorem step_next (s : State) : ∃ t, step s = .next t := by
  unfold step stepMove
  split
  · exact ⟨_, rfl⟩
  · split
    · exact engineMove_next _
    · exact hostMove_next _

/-! ## The configuration is kept (R6 to R9) -/

@[simp] theorem setOperandWord_cfg (x : OperandReg) (i : Nat) (w : Word) (s : State) :
    (s.setOperandWord x i w).cfg = s.cfg := by
  cases x <;> rfl

theorem exec_cfg {i : Instr} {s t : State} (h : exec i s = .next t) : t.cfg = s.cfg := by
  obtain ⟨_, _, rfl⟩ | ⟨_, _, _, rfl⟩ | ⟨_, _, _, _, _, rfl⟩ | ⟨_, _, _, rfl⟩ | ⟨_, _, _, rfl⟩ :=
    exec_cases h
  all_goals rfl

theorem memWrite_cfg {size : Size} {off : Offset} {w : Word} {s t : State}
    (h : memWrite size off w s = .next t) : t.cfg = s.cfg := by
  obtain ⟨_, rfl⟩ | ⟨_, _, _, rfl⟩ | ⟨_, _, _, rfl⟩ | ⟨_, _, rfl⟩ | ⟨_, _, rfl⟩ | ⟨_, _, _, rfl⟩ |
    ⟨_, x, i, _, _, _, rfl⟩ | ⟨_, _, _, i, _, he⟩ | ⟨_, _, _, _, rfl⟩ := memWrite_cases h
  any_goals rfl
  · exact setOperandWord_cfg x i w _
  · exact (exec_cfg he).trans (respond_cfg _ s)

theorem hostOp_cfg {op : HostOp} {s t : State} (h : hostOp op s = .next t) : t.cfg = s.cfg := by
  obtain ⟨_, _, _, _, hw⟩ | ⟨_, _, _, _, rfl, _⟩ := hostOp_cases h
  · exact memWrite_cfg hw
  · rfl

theorem step_cfg {s t : State} (h : step s = .next t) : t.cfg = s.cfg := by
  obtain ⟨_, rfl⟩ | ⟨_, _, _, _, _, rfl⟩ | ⟨_, _, rfl⟩ | ⟨_, _, op, _, ho⟩ := step_cases h
  · rfl
  · rfl
  · rfl
  · exact (hostOp_cfg ho).trans rfl

/-! ## A step runs the command (R76, R110, R114) -/

theorem rstAsserted_eq_false_iff (s : State) : s.rstAsserted = false ↔ s.rstN.head? ≠ some false := by
  simp [State.rstAsserted]

theorem engineTurn_idle {s : State} (h : s.phase = .idle) : s.engineTurn = false := by
  simp [State.engineTurn, busy_idle h]

theorem engineDue_iff (s : State) : s.engineDue = true ↔ s.wait = 0 ∨ s.host.next = none := by
  simp [State.engineDue]

/-- A CMD write on an idle engine is the command its word spells, answered OKAY (R110). -/
theorem memWrite_cmd_idle {s : State} {w : Word} {i : Instr} (hp : s.phase = .idle)
    (hd : decode w = .ok i) : memWrite .b32 offCmd w s = exec i (s.respond .writeOkay) := by
  have hb : (s.respond .writeOkay).busy = false := busy_idle hp
  show writeCmd w (s.respond .writeOkay) = _
  simp [writeCmd, hb, hd]

/-- The host's line decides the step on an idle engine. -/
theorem step_idle_host {s : State} {op : HostOp} (hr : s.rstN.head? ≠ some false) (hp : s.phase = .idle)
    (hn : s.host.next = some op) : step s = hostOp op s.tick.advance :=
  step_host ((rstAsserted_eq_false_iff s).mpr hr) (engineTurn_idle hp) hn

theorem step_wr_cmd {s : State} {src : Src} {i : Instr} (hr : s.rstN.head? ≠ some false)
    (hp : s.phase = .idle) (hn : s.host.next = some (.wr offCmd src))
    (hd : decode (s.host.srcWord src) = .ok i) :
    step s = exec i (s.tick.advance.respond .writeOkay) := by
  have hsrc : s.tick.advance.host.srcWord src = s.host.srcWord src := by cases src <;> rfl
  rw [step_idle_host hr hp hn, hostOp, hsrc]
  exact memWrite_cmd_idle hp hd

theorem step_busWrite_cmd {s : State} {w : Word} {i : Instr} (hr : s.rstN.head? ≠ some false)
    (hp : s.phase = .idle) (hn : s.host.next = some (.busWrite (s.cfg.base + 0x008) .b32 w))
    (hd : decode w = .ok i) : step s = exec i (s.tick.advance.respond .writeOkay) := by
  have hoff : offsetOf s.tick.advance.cfg (s.cfg.base + 0x008) = some offCmd :=
    offsetOf_base_add s.cfg offCmd
  rw [step_idle_host hr hp hn, hostOp, hoff]
  exact memWrite_cmd_idle hp hd

theorem step_engine_exec {s : State} {op : Op} (hr : s.rstN.head? ≠ some false)
    (hp : s.phase = .busy op) (hw : s.waitsForEntropy = false) (hd : s.wait = 0 ∨ s.host.next = none) :
    step s = exec op.instr s.tick := by
  have hr' := (rstAsserted_eq_false_iff s).mpr hr
  have ht : s.tick.engineTurn = true := by
    have hb : s.tick.busy = true := busy_busy hp
    have hw' : s.tick.waitsForEntropy = false := hw
    have hd' : s.tick.engineDue = true := (engineDue_iff s).mpr hd
    simp [State.engineTurn, hb, hw', hd']
  rw [step, stepMove, if_neg (by simp [hr']), if_pos ht, engineMove, tick_phase, hp]

/-- `placeCommand` puts its CMD write at the host's position (log 8). -/
theorem placeCommand_next (w : Word) (s : State) :
    (s.placeCommand w).host.next = some (.wr offCmd (.imm w)) := by
  have hline : (s.placeCommand w).host.prog[(s.placeCommand w).host.pc]? = some (.wr offCmd (.imm w)) := by
    simp only [State.placeCommand]
    rw [List.getElem?_append_right (by simp)]
    simp
  rw [HostAgent.next, hline]
  rfl

theorem withFetchWord_toNat (s : State) (w : Word) : s.withFetchWord 32 w.toNat = s.placeCommand w := by
  rw [State.withFetchWord, Nat.mod_eq_of_lt w.isLt, BitVec.ofNat_toNat, BitVec.setWidth_eq]

/-! ## EXP_FORM changes no result (R7, R131, R151) -/

theorem modExp_form (c : Config) (f : ExpForm) {a e n : Nat} (hn : n < 2 ^ c.opw) (he : e < 2 ^ c.opw) :
    modExp { c with expForm := f } a e n = modExp c a e n :=
  (modExp_eq { c with expForm := f } a e n hn he).trans (modExp_eq c a e n hn he).symm

theorem modexpCompletion_form (c : Config) (f : ExpForm) {a e n : Nat} (hn : n < 2 ^ c.opw)
    (he : e < 2 ^ c.opw) : modexpCompletion { c with expForm := f } a e n = modexpCompletion c a e n := by
  rw [modexpCompletion, modexpCompletion, modExp_form c f hn he]

theorem mrRound_form (c : Config) (f : ExpForm) {n m : Nat} (s a : Nat) (hn : n < 2 ^ c.opw)
    (hm : m < 2 ^ c.opw) : mrRound { c with expForm := f } n m s a = mrRound c n m s a := by
  rw [mrRound, mrRound, modExp_form c f hn hm]

theorem mrLoop_form (c : Config) (f : ExpForm) {n m : Nat} (s : Nat) (draw : Nat → Option Nat)
    (left i last : Nat) (hn : n < 2 ^ c.opw) (hm : m < 2 ^ c.opw) :
    mrLoop { c with expForm := f } n m s draw left i last = mrLoop c n m s draw left i last := by
  induction left generalizing i last with
  | zero => rfl
  | succ left ih => simp only [mrLoop, mrRound_form c f s _ hn hm, ih]

/-- The odd part that the pre-checks find is below the candidate (R19, R150). -/
theorem mrPre_rounds_lt {n m s : Nat} (h : mrPre n = .rounds m s) : m < n := by
  unfold mrPre at h
  split at h
  · cases h
  · split at h
    · cases h
    · injection h with hm
      exact hm ▸ split_fst_lt n (by omega)

theorem mrtestCompletion_form (c : Config) (f : ExpForm) {n : Nat} (k : Nat) (draw : Nat → Option Nat)
    (hn : n < 2 ^ c.opw) :
    mrtestCompletion { c with expForm := f } n k draw = mrtestCompletion c n k draw := by
  unfold mrtestCompletion
  cases h : mrPre n with
  | rounds m s => simp only [mrLoop_form c f s draw k 0 0 hn ((mrPre_rounds_lt h).trans hn)]
  | _ => rfl

theorem mrwitCompletion_form (c : Config) (f : ExpForm) {n : Nat} (a : Nat) (hn : n < 2 ^ c.opw) :
    mrwitCompletion { c with expForm := f } n a = mrwitCompletion c n a := by
  unfold mrwitCompletion
  cases h : mrPre n with
  | rounds m s => simp only [mrRound_form c f s a hn ((mrPre_rounds_lt h).trans hn)]
  | _ => rfl

@[simp] theorem withForm_val (f : ExpForm) (s : State) (x : OperandReg) : (s.withForm f).val x = s.val x := by
  cases x <;> rfl

/-- The running command's completion is the same in both forms. -/
theorem completionOf_withForm (f : ExpForm) (s : State) (op : Op) :
    completionOf (s.withForm f) op = completionOf s op := by
  cases op with
  | modexp =>
    simp only [completionOf, withForm_val]
    exact congrArg some (modexpCompletion_form s.cfg f (val_lt s .n) (val_lt s .e))
  | modinv => simp only [completionOf, withForm_val]
  | mrtest =>
    simp only [completionOf, State.mrtestResult, withForm_val]
    exact mrtestCompletion_form s.cfg f s.iter.toNat s.draw (val_lt s .n)
  | mrwit =>
    simp only [completionOf, withForm_val]
    exact congrArg some (mrwitCompletion_form s.cfg f (s.val .a) (val_lt s .n))

/-- A command that is not the running one is dropped, NOP among them (R67). -/
theorem exec_drop {i : Instr} {s : State} {op : Op} (hp : s.phase = .busy op) (hne : i ≠ op.instr) :
    exec i s = .next s.dropWrite := by
  obtain rfl | ⟨op', rfl⟩ := instr_cases i
  · exact exec_nop_busy hp
  · exact exec_other hp fun h => hne (h ▸ rfl)

theorem exec_withForm {i : Instr} {s t : State} (f : ExpForm) (h : exec i s = .next t) :
    exec i (s.withForm f) = .next (t.withForm f) := by
  obtain ⟨rfl, hp, rfl⟩ | ⟨op, rfl, hp, rfl⟩ | ⟨op, c, rfl, hp, hc, rfl⟩ | ⟨rfl, hp, hr, rfl⟩ |
    ⟨op, hp, hne, rfl⟩ := exec_cases h
  · exact exec_nop_idle (s := s.withForm f) hp
  · exact exec_take (s := s.withForm f) op hp
  · exact exec_complete (s := s.withForm f) hp ((completionOf_withForm f s op).trans hc)
  · exact exec_wait (op := .mrtest) (s := t.withForm f) hp ((completionOf_withForm f t .mrtest).trans hr)
  · exact exec_drop (s := s.withForm f) hp hne

/-! ## MRTEST on a source that does not answer (R9, R152) -/

theorem mrPre_odd {n : Nat} (h3 : 3 ≤ n) (hodd : n % 2 = 1) : mrPre n = .rounds (split n).1 (split n).2 := by
  rw [mrPre, if_neg (by omega), if_neg (by omega)]

/-- On an odd candidate of 5 or more MRTEST runs its rounds (R150, R153). -/
theorem mrtestResult_odd {s : State} (h5 : 5 ≤ s.val .n) (hodd : s.val .n % 2 = 1) :
    s.mrtestResult = mrLoop s.cfg (s.val .n) (split (s.val .n)).1 (split (s.val .n)).2 s.draw
      s.iter.toNat 0 0 := by
  rw [State.mrtestResult, mrtestCompletion, mrPre_odd (by omega) hodd]
  exact if_neg (by omega)

/-- After `k` witnesses that pass, an answer that does not come leaves MRTEST waiting. -/
theorem mrtestResult_none {s : State} {w : Nat → Nat} {k : Nat} (h5 : 5 ≤ s.val .n)
    (hodd : s.val .n % 2 = 1) (hk : k < s.iter.toNat)
    (hw : ∀ i, i < k → (s.draw i).map (drawWitness 2 (s.val .n - 2)) = some (w i))
    (hpass : ∀ i, i < k → passesRound (s.val .n) (w i)) (hnone : s.draw k = none) :
    s.mrtestResult = none := by
  have hround : ∀ i, i < k →
      mrRound s.cfg (s.val .n) (split (s.val .n)).1 (split (s.val .n)).2 (w i) = true := fun i hi =>
    (mrRound_iff s.cfg _ _ (by omega) hodd (val_lt s .n)).mpr (hpass i hi)
  rw [mrtestResult_odd h5 hodd]
  exact mrLoop_waits _ _ _ _ _ w _ 0 0 k hk (fun i _ hi => hw i (by omega))
    (fun i _ hi => hround i (by omega)) (by rwa [Nat.zero_add])

/-- ent_req is high when nothing but an answer is missing (log 11). -/
theorem entReq_of_waits {s : State} (hw : s.waitsForEntropy = true) (hd : s.wait = 0 ∨ s.host.next = none) :
    s.entReq = true := by
  simp [State.entReq, drawsWitnesses_of_waits hw, hw, (engineDue_iff s).mpr hd]

/-- A silent source gives the answers that are ready and no other (R9). -/
theorem draw_silent {s : State} (h : s.cfg.entropyLive = false) : s.draw = fun i => s.entropy[i]? := by
  funext i
  unfold State.draw
  cases s.entropy[i]? <;> simp [h]

theorem silent_of_waits {s : State} (h : s.waitsForEntropy = true) : s.cfg.entropyLive = false := by
  by_contra hlive
  simp [not_waits_live (Bool.not_eq_false _ ▸ hlive)] at h

/-- Whether MRTEST waits rests on the phase, N, ITER, the parameters and the answers that are ready. -/
theorem waitsForEntropy_of_same {s t : State} (hw : s.waitsForEntropy = true) (hcfg : t.cfg = s.cfg)
    (hphase : t.phase = s.phase) (hn : t.n = s.n) (hiter : t.iter = s.iter) (hent : t.entropy = s.entropy) :
    t.waitsForEntropy = true := by
  have hs := silent_of_waits hw
  have hval : t.val .n = s.val .n := by simp [State.val, State.raw, hn, hcfg]
  have hdraw : t.draw = s.draw := by rw [draw_silent hs, draw_silent (hcfg ▸ hs), hent]
  rw [waitsForEntropy_iff] at hw ⊢
  obtain ⟨hp, hr⟩ := hw
  refine ⟨hphase.trans hp, ?_⟩
  rw [State.mrtestResult, hcfg, hval, hiter, hdraw]
  exact hr

/-- While BUSY a write transaction changes the port's answer and the bits WERR, IRQ_EN and DONE_IRQ at
most, or resets the block (R67). -/
theorem memWrite_busy_cases {size : Size} {off : Offset} {w : Word} {s t : State} (hb : s.busy = true)
    (h : memWrite size off w s = .next t) :
    (∃ p we ie di, t = { s with resp := p, werr := we, irqEn := ie, doneIrq := di }) ∨
    ∃ p, t = (s.respond p).blockReset := by
  have hidle : ∀ {P : Prop}, s.busy = false → P := fun hf => by simp [hb] at hf
  obtain ⟨_, rfl⟩ | ⟨_, _, _, rfl⟩ | ⟨_, _, _, rfl⟩ | ⟨_, _, rfl⟩ | ⟨_, _, rfl⟩ | ⟨hf, _⟩ | ⟨hf, _⟩ |
    ⟨hf, _⟩ | ⟨hf, _⟩ := memWrite_cases h
  · exact .inl ⟨_, _, _, _, rfl⟩
  · exact .inl ⟨_, _, _, _, rfl⟩
  · exact .inr ⟨_, rfl⟩
  · exact .inl ⟨_, _, _, _, rfl⟩
  · exact .inl ⟨_, _, _, _, rfl⟩
  all_goals exact hidle hf

/-- While BUSY a host line keeps every register but WERR, IRQ_EN and DONE_IRQ, or resets the block. -/
theorem hostOp_busy_cases {op : HostOp} {s t : State} (hb : s.busy = true) (h : hostOp op s = .next t) :
    (∃ p we ie di fc ha, t =
      { s with resp := p, werr := we, irqEn := ie, doneIrq := di, freeCount := fc, host := ha }) ∨
    ∃ p, t = (s.respond p).blockReset := by
  obtain ⟨_, _, _, _, hw⟩ | ⟨_, _, _, _, rfl, _⟩ := hostOp_cases h
  · obtain ⟨_, _, _, _, rfl⟩ | hreset := memWrite_busy_cases hb hw
    · exact .inl ⟨_, _, _, _, _, _, rfl⟩
    · exact .inr hreset
  · exact .inl ⟨_, _, _, _, _, _, rfl⟩

/-- A step of a waiting state leaves it waiting, with DONE, N and ITER as they were, or is a reset. -/
theorem step_of_waits {s t : State} (hw : s.waitsForEntropy = true) (h : step s = .next t) :
    (t.waitsForEntropy = true ∧ t.done = s.done ∧ t.val .n = s.val .n ∧ t.iter = s.iter) ∨
    (t.phase = .idle ∧ t.done = false ∧ t.doneIrq = false ∧ t.val .n = 0 ∧ t.iter = 40) := by
  obtain ⟨hp, hr⟩ := (waitsForEntropy_iff s).mp hw
  have hreset : ∀ u : State, u.blockReset.val .n = 0 := fun u => Nat.zero_mod _
  obtain ⟨_, rfl⟩ | ⟨_, op, c, hop, hc, _⟩ | ⟨_, _, rfl⟩ | ⟨_, _, op, _, ho⟩ := step_cases h
  case inl => exact .inr ⟨rfl, rfl, rfl, hreset _, rfl⟩
  case inr.inl =>
    -- the completion of a waiting MRTEST is not enabled
    obtain rfl : Op.mrtest = op := Phase.busy.inj (hp.symm.trans hop)
    cases hr.symm.trans hc
  case inr.inr.inl => exact .inl ⟨hw, rfl, rfl, rfl⟩
  case inr.inr.inr =>
    obtain ⟨_, _, _, _, _, _, rfl⟩ | ⟨_, rfl⟩ := hostOp_busy_cases (busy_busy (s := s.tick.advance) hp) ho
    · exact .inl ⟨waitsForEntropy_of_same hw rfl rfl rfl rfl rfl, rfl, rfl, rfl⟩
    · exact .inr ⟨rfl, rfl, rfl, hreset _, rfl⟩

/-! ## The obligations -/

/-- Settles O50: the answer 0 does not come, and no step but a reset changes what the wait rests on. -/
theorem silentEntropyHangsUntilReset : Obligations.SilentEntropyHangsUntilReset := by
  refine ⟨fun s hp hsilent hempty h5 hodd hiter => ?_, fun s t hw h => step_of_waits hw h⟩
  have hpos : 0 < s.iter.toNat := Nat.pos_of_ne_zero fun h0 => hiter (BitVec.eq_of_toNat_eq h0)
  have hnone : s.draw 0 = none := by simp [draw_silent hsilent, hempty]
  exact (waitsForEntropy_iff s).mpr
    ⟨hp, mrtestResult_none (w := id) h5 hodd hpos (fun _ => nofun) (fun _ => nofun) hnone⟩

/-- Settles O5, by the cases of a step. -/
theorem stepKeepsTheConfiguration : Obligations.StepKeepsTheConfiguration :=
  fun _ _ h => step_cfg h

/-- Settles O23: the rounds before the missing answer pass, so MRTEST has no completion yet. -/
theorem mrtestWaitsForEntropy : Obligations.MrtestWaitsForEntropy := by
  intro s w k hp h5 hodd hk hw hpass hnone
  have hr := mrtestResult_none h5 hodd hk hw hpass hnone
  have hwaits := (waitsForEntropy_iff s).mpr ⟨hp, hr⟩
  exact ⟨hwaits, entReq_of_waits hwaits, exec_wait (op := .mrtest) hp hr⟩

/-- Settles O30: the form is read by `modExp` alone, which gives one power in both. -/
theorem formChangesNoResult : Obligations.FormChangesNoResult := by
  intro i s f
  obtain ⟨t, ht⟩ := exec_next i s
  exact ⟨t, ht, exec_withForm f ht⟩

/-- Settles O39: the sum of the words is the value cut to OPW bits, and the bytes are its bits. -/
theorem operandIsTheSumOfItsWords : Obligations.OperandIsTheSumOfItsWords := fun s x =>
  ⟨(sumWords_eq _ _).symm, val_lt s x, (sumWords_eq _ _).symm, valR_lt s,
    fun k _ hj => byteAt_eq_extractLsb'_wordAt _ k hj⟩

/-- Settles O6: a reset, the engine's move and the host's move all answer. -/
theorem everyStepAnswersANextState : Obligations.EveryStepAnswersANextState := step_next

/-- Settles O11: a CMD write of either kind, the engine's turn, and the placed word. -/
theorem stepRunsTheDecodedCommand : Obligations.StepRunsTheDecodedCommand := by
  refine ⟨fun s src i => step_wr_cmd, ?_, fun s op => step_engine_exec, fun s w i hd => ?_⟩
  · rintro s addr w i hr hp hn rfl hd
    exact step_busWrite_cmd hr hp hn hd
  · rw [withFetchWord_toNat]
    exact step_wr_cmd (src := .imm w) nofun rfl (placeCommand_next w s) hd

/-- Settles O25: an answer outside the range is cut to it, one inside stands for itself. -/
theorem witnessDrawsCoverTheRange : Obligations.WitnessDrawsCoverTheRange := fun lo hi h =>
  ⟨fun x => drawWitness_mem lo hi x h, fun _ hlo hhi => if_pos ⟨hlo, hhi⟩⟩

/-- Settles O43: outside the window there is no offset, so a raw access does nothing. -/
theorem windowIsPlacedAtBase : Obligations.WindowIsPlacedAtBase := by
  refine ⟨offsetOf_base_add, fun _ _ => offsetOf_outside, fun s addr size w h => ?_⟩
  simp [hostOp, offsetOf_outside h]

end Sys2Proof.Machine
end

section
/-! PROOFS. The statements on 10_state.md. First the fields of the registers as read; then what one step
does, every write with the host's line that makes it; then the run invariant, one lemma per effect. -/

namespace Sys2Proof.Machine

/-! ## The registers as read (R23 to R35) -/

theorem statusWord_busy (s : State) : s.statusWord.getLsbD 0 = s.busy := by
  rw [State.statusWord, BitVec.getLsbD_append]
  simp

theorem statusWord_done (s : State) : s.statusWord.getLsbD 1 = s.done := by
  rw [State.statusWord]
  iterate 2 rw [BitVec.getLsbD_append]
  simp

theorem statusWord_werr (s : State) : s.statusWord.getLsbD 2 = s.werr := by
  rw [State.statusWord]
  iterate 3 rw [BitVec.getLsbD_append]
  simp

theorem statusWord_prime (s : State) : s.statusWord.getLsbD 3 = s.prime := by
  rw [State.statusWord]
  iterate 4 rw [BitVec.getLsbD_append]
  simp

theorem statusWord_reserved_low (s : State) : s.statusWord.extractLsb' 4 4 = 0 := by
  rw [State.statusWord]
  iterate 4 rw [BitVec.extractLsb'_append_eq_of_le (by decide)]
  exact BitVec.extractLsb'_append_eq_right

theorem statusWord_err (s : State) : s.statusWord.extractLsb' 8 4 = s.err.code := by
  rw [State.statusWord]
  iterate 5 rw [BitVec.extractLsb'_append_eq_of_le (by decide)]
  exact BitVec.extractLsb'_append_eq_right

theorem statusWord_reserved_high (s : State) : s.statusWord.extractLsb' 12 20 = 0 := by
  rw [State.statusWord]
  iterate 6 rw [BitVec.extractLsb'_append_eq_of_le (by decide)]
  exact BitVec.extractLsb'_zero

theorem ErrCode.code_eq_iff (e f : ErrCode) : e.code = f.code ↔ e = f := by
  cases e <;> cases f <;> decide

theorem paramWord_opw (c : Config) : ((paramWord c).extractLsb' 0 16).toNat = c.opw := by
  have hw := (words_bounds c).2
  rw [paramWord, BitVec.extractLsb'_append_eq_right, BitVec.toNat_ofNat, opw_eq]
  omega

theorem paramWord_expForm (c : Config) :
    (paramWord c).getLsbD 16 = true ↔ c.expForm = .montgomery := by
  rw [paramWord, BitVec.getLsbD_append]
  cases c.expForm <;> simp [ExpForm.bit]

theorem paramWord_reserved (c : Config) : (paramWord c).extractLsb' 17 15 = 0 := by
  rw [paramWord]
  iterate 2 rw [BitVec.extractLsb'_append_eq_of_le (by decide)]
  exact BitVec.extractLsb'_zero

/-- CTRL and INTSTAT read their one flag in bit 0. -/
theorem flagWord_getLsbD_zero (b : Bool) : (0#31 ++ BitVec.ofBool b).getLsbD 0 = b := by
  cases b <;> rfl

/-! ## Decoding (R91, R94) -/

theorem eq_encode_of_decode {w : Word} {i : Instr} (h : decode w = .ok i) : w = encode i := by
  unfold decode at h
  split at h
  · cases h
  · rename_i hrsv
    have hw : w = BitVec.ofNat 32 (opcOf w).toNat := by
      have hhigh : w.toNat / 16 % 2 ^ 28 = 0 := by
        have := congrArg BitVec.toNat (not_not.mp hrsv)
        simpa [rsvOf, Nat.shiftRight_eq_div_pow] using this
      apply BitVec.eq_of_toNat_eq
      simp [opcOf]
      omega
    split at h <;> cases h <;> rename_i hopc <;> rw [hw, hopc] <;> rfl

/-! ## What one step does -/

/-- The state in which the host's write is served: its line is passed and OKAY answered. -/
abbrev State.served (s : State) : State := s.tick.advance.respond .writeOkay

/-- The effects of one step on the block, every write with the host's line that makes it. -/
inductive StepEffect (s : State) : State → Prop
  /-- No register changes: only the inputs, the port's answer and the host. -/
  | quiet (p : Option Response) (f k pc : Nat) (m : List (Nat × Int))
      (hm : m = s.host.temps ∨ ∃ t v, m = tempSet s.host.temps t v) :
      StepEffect s { s with
        resp := p, freeCount := f, wait := k, rstN := s.rstN.tail,
        host := { s.host with pc := pc, temps := m } }
  /-- A reset (R190, R191). -/
  | reset (p : Option Response) (pc : Nat) (hr : s.resets) :
      StepEffect s { s.blockReset with
        resp := p, rstN := s.rstN.tail, host := { s.host with pc := pc } }
  /-- The completion of the running command (R113, R114). -/
  | complete {op : Op} {c : Completion} (hp : s.phase = .busy op) (hc : completionOf s.tick op = some c) :
      StepEffect s ((s.tick.consumeDraws (drawsOf c op)).complete c)
  /-- A write dropped while BUSY (R67). -/
  | drop {off : Offset} {w : Word} (hb : s.busy = true) (hw : s.hostWrites off w)
      (ho : off = offCmd ∨ off = offIter ∨ ∃ (x : OperandReg) (i : Nat),
        i < s.cfg.words ∧ off = BitVec.ofNat 12 (x.offset + 4 * i)) :
      StepEffect s s.served.dropWrite
  /-- A CTRL write without SRST (R32). -/
  | irqEn {w : Word} (hw : s.hostWrites offCtrl w) :
      StepEffect s { s.served with irqEn := ctrlIrqEn w }
  /-- An INTSTAT write (R33). -/
  | intstat {w : Word} (hw : s.hostWrites offIntstat w) :
      StepEffect s (s.served.writeIntstat w)
  /-- An ITER write on an idle engine (R34). -/
  | iter {w : Word} (hp : s.phase = .idle) (hw : s.hostWrites offIter w) :
      StepEffect s { s.served with iter := iterField w }
  /-- A write of a word of A, E or N on an idle engine (R62). -/
  | operand {w : Word} (x : OperandReg) {i : Nat} (hp : s.phase = .idle) (hi : i < s.cfg.words) :
      StepEffect s (s.served.setOperandWord x i w)
  /-- The take of a computing command (R110, R112). -/
  | take {op : Op} (hp : s.phase = .idle) (hw : s.hostWrites offCmd (encode op.instr)) :
      StepEffect s ((s.served.takeFirst (encode op.instr)).startCommand op)
  /-- NOP (R115). -/
  | nop (hp : s.phase = .idle) (hw : s.hostWrites offCmd (encode .nop)) :
      StepEffect s ((s.served.takeFirst (encode .nop)).complete nopCompletion)
  /-- The take of an illegal word (R111). -/
  | illegal {w : Word} {why : Illegal} (hp : s.phase = .idle) (hw : s.hostWrites offCmd w)
      (hd : decode w = .error why) : StepEffect s (s.served.takeIllegal w)

/-- A CMD write of a command on an idle engine is its take (R110, R112, R115). -/
theorem stepEffect_of_exec {s t : State} {w : Word} {i : Instr} (hp : s.phase = .idle)
    (hw : s.hostWrites offCmd w) (hd : decode w = .ok i) (h : exec i s.served = .next t) :
    StepEffect s t := by
  obtain rfl := eq_encode_of_decode hd
  have hserved : s.served.phase = .idle := hp
  obtain rfl | ⟨op, rfl⟩ := instr_cases i
  · rw [exec_nop_idle hserved] at h
    cases h
    exact .nop hp hw
  · rw [exec_take op hserved] at h
    cases h
    exact .take hp hw

/-- A write transaction of the host has one of the effects of a step. -/
theorem stepEffect_of_memWrite {s t : State} {size : Size} {off : Offset} {w : Word}
    (hwrite : size = .b32 → s.hostWrites off w) (h : memWrite size off w s.tick.advance = .next t) :
    StepEffect s t := by
  have hidle : s.tick.advance.busy = false → s.phase = .idle := (busy_eq_false_iff s).mp
  obtain ⟨p, rfl⟩ | ⟨hb, hs, ho, rfl⟩ | ⟨hsrst, hs, rfl, rfl⟩ | ⟨hs, rfl, rfl⟩ | ⟨hs, rfl, rfl⟩ |
    ⟨hb, hs, rfl, rfl⟩ | ⟨hb, x, i, hi, hs, rfl, rfl⟩ | ⟨hb, hs, rfl, i, hd, he⟩ |
    ⟨hb, hs, rfl, ⟨why, hd⟩, rfl⟩ := memWrite_cases h
  · exact .quiet _ _ _ _ _ (.inl rfl)
  · exact .drop hb (hwrite hs) ho
  · exact .reset _ _ (.inr ⟨w, hsrst, hwrite hs⟩)
  · exact .irqEn (hwrite hs)
  · exact .intstat (hwrite hs)
  · exact .iter (hidle hb) (hwrite hs)
  · exact .operand x (hidle hb) hi
  · exact stepEffect_of_exec (hidle hb) (hwrite hs) hd he
  · exact .illegal (hidle hb) (hwrite hs) hd

/-- Everything one step can do, in terms of the state before it. -/
theorem stepEffect_of_step {s t : State} (h : step s = .next t) : StepEffect s t := by
  obtain ⟨hr, rfl⟩ | ⟨_, op, c, hp, hc, rfl⟩ | ⟨_, _, rfl⟩ | ⟨hr, ht, op, hn, ho⟩ := step_cases h
  · exact .reset _ _ (.inl (by simpa [State.rstAsserted] using hr))
  · exact .complete hp hc
  · exact .quiet _ _ _ _ _ (.inl rfl)
  · obtain ⟨size, off, w, hw, hm⟩ | ⟨p, f, pc, m, rfl, hm⟩ := hostOp_cases ho
    · exact stepEffect_of_memWrite (fun hs => hostWrites_of hr ht hn (hs ▸ hw)) hm
    · exact .quiet _ _ _ _ _ hm

/-! ## The run invariant, effect by effect -/

/-- What R171 and R30 say of the completion that a running command makes. -/
structure Completion.Sound (op : Op) (c : Completion) : Prop where
  not_illegal : c.err ≠ .illegalCmd
  prime_src : c.prime = true → c.err = .ok ∧ (op = .mrtest ∨ op = .mrwit)
  invalid_src : c.err = .invalidArgument →
    (op = .modexp ∨ op = .modinv ∨ op = .mrwit) ∧ c.r = some 0 ∧ c.rounds = some 0
  no_inverse_src : c.err = .noInverse → op = .modinv ∧ c.r = some 0 ∧ c.rounds = some 0

theorem modexpCompletion_sound (c : Config) (a e n : Nat) : (modexpCompletion c a e n).Sound .modexp := by
  unfold modexpCompletion
  split <;> constructor <;> simp

theorem modinvCompletion_sound (b n : Nat) : (modinvCompletion b n).Sound .modinv := by
  unfold modinvCompletion
  split
  · constructor <;> simp
  · split <;> constructor <;> simp

theorem mrtestCompletion_err {c : Config} {n k : Nat} {draw : Nat → Option Nat} {r : Completion}
    (h : mrtestCompletion c n k draw = some r) : r.err = .ok := by
  unfold mrtestCompletion at h
  split at h
  · cases h; rfl
  · cases h; rfl
  · split at h
    · cases h; rfl
    · obtain ⟨herr, _⟩ := mrLoop_cases _ _ _ _ _ _ _ _ _ h
      exact herr

theorem mrtestCompletion_sound {c : Config} {n k : Nat} {draw : Nat → Option Nat} {r : Completion}
    (h : mrtestCompletion c n k draw = some r) : r.Sound .mrtest := by
  have herr := mrtestCompletion_err h
  constructor <;> simp [herr]

theorem mrwitCompletion_sound (c : Config) (n a : Nat) : (mrwitCompletion c n a).Sound .mrwit := by
  unfold mrwitCompletion
  split
  · constructor <;> simp
  · constructor <;> simp
  · split <;> constructor <;> simp

theorem completionOf_sound {s : State} {op : Op} {c : Completion} (h : completionOf s op = some c) :
    c.Sound op := by
  cases op with
  | mrtest => exact mrtestCompletion_sound h
  | modexp => cases h; exact modexpCompletion_sound _ _ _ _
  | modinv => cases h; exact modinvCompletion_sound _ _
  | mrwit => cases h; exact mrwitCompletion_sound _ _ _

theorem complete_r_lt {s : State} (c : Completion) (h : s.r < 2 ^ s.cfg.opw) :
    (s.complete c).r < 2 ^ s.cfg.opw := by
  obtain ⟨e, _ | v, p, k⟩ := c
  · exact h
  · exact Nat.mod_lt _ (Nat.two_pow_pos _)

theorem complete_r_zero {c : Completion} (s : State) (h : c.r = some 0) : (s.complete c).r = 0 := by
  simp [State.complete, h]

theorem complete_mrRounds_zero {c : Completion} (s : State) (h : c.rounds = some 0) :
    (s.complete c).mrRounds = 0 := by
  simp [State.complete, h]

namespace State.Inv

variable {s : State}

/-- The invariant does not speak of the inputs, the port, IRQ_EN, ITER and the host but its temporaries. -/
theorem frame (h : s.Inv) {p : Option Response} {f k : Nat} {en : List Nat} {rst : List Bool}
    {ie : Bool} {it : BitVec 16} {ha : HostAgent} (htemps : tempsWf ha.temps = true) :
    State.Inv { s with
      resp := p, freeCount := f, wait := k, entropy := en, rstN := rst, irqEn := ie, iter := it,
      host := ha } :=
  ⟨h.a_lt, h.e_lt, h.n_lt, h.r_lt, h.busy_clear, h.busy_cmd, h.fresh, h.prime_src, h.illegal_src,
    h.invalid_src, h.no_inverse_src, htemps⟩

theorem served (h : s.Inv) : s.served.Inv := h.frame h.temps_wf

theorem blockReset (htemps : tempsWf s.host.temps = true) : s.blockReset.Inv where
  a_lt := Nat.two_pow_pos _
  e_lt := Nat.two_pow_pos _
  n_lt := Nat.two_pow_pos _
  r_lt := Nat.two_pow_pos _
  busy_clear := nofun
  busy_cmd := nofun
  fresh := fun _ _ => ⟨rfl, rfl, rfl, rfl, rfl, rfl, rfl⟩
  prime_src := nofun
  illegal_src := nofun
  invalid_src := nofun
  no_inverse_src := nofun
  temps_wf := htemps

/-- WERR is free while BUSY (R29, R67). -/
theorem dropWrite (h : s.Inv) (hb : s.busy = true) : s.dropWrite.Inv :=
  { h with fresh := fun hidle => absurd (hb.symm.trans hidle) nofun }

/-- Clearing DONE_IRQ keeps it clear before the first completion. -/
theorem writeIntstat (h : s.Inv) (w : Word) : (s.writeIntstat w).Inv :=
  { h with
    fresh := fun hb hd => by
      obtain ⟨hcmd, hr, hrounds, hprime, herr, hwerr, hirq⟩ := h.fresh hb hd
      exact ⟨hcmd, hr, hrounds, hprime, herr, hwerr, by simp [hirq]⟩ }

theorem setOperandWord (h : s.Inv) (x : OperandReg) {i : Nat} (w : Word) (hi : i < s.cfg.words) :
    (s.setOperandWord x i w).Inv := by
  have hlt := setOperandWord_val_lt (x := x) w hi
  cases x with
  | a => exact { h with a_lt := hlt }
  | e => exact { h with e_lt := hlt }
  | n => exact { h with n_lt := hlt }

/-- The take of a computing command leaves the status of a busy engine (R112). -/
theorem take (h : s.Inv) (op : Op) : ((s.takeFirst (encode op.instr)).startCommand op).Inv where
  a_lt := h.a_lt
  e_lt := h.e_lt
  n_lt := h.n_lt
  r_lt := Nat.mod_lt _ (Nat.two_pow_pos _)
  busy_clear := fun _ => ⟨rfl, rfl, rfl⟩
  busy_cmd := fun op' hop => by cases hop; rfl
  fresh := nofun
  prime_src := nofun
  illegal_src := nofun
  invalid_src := nofun
  no_inverse_src := nofun
  temps_wf := h.temps_wf

/-- NOP completes with ERR = OK (R115). -/
theorem nop (h : s.Inv) : ((s.takeFirst (encode .nop)).complete nopCompletion).Inv where
  a_lt := h.a_lt
  e_lt := h.e_lt
  n_lt := h.n_lt
  r_lt := h.r_lt
  busy_clear := nofun
  busy_cmd := nofun
  fresh := nofun
  prime_src := nofun
  illegal_src := fun _ => ⟨nofun, fun ⟨_, hd⟩ => nomatch (decode_encode .nop).symm.trans hd⟩
  invalid_src := nofun
  no_inverse_src := nofun
  temps_wf := h.temps_wf

/-- An illegal word completes with ERR = ILLEGAL_CMD (R111). -/
theorem takeIllegal (h : s.Inv) {w : Word} {why : Illegal} (hd : decode w = .error why) :
    (s.takeIllegal w).Inv where
  a_lt := h.a_lt
  e_lt := h.e_lt
  n_lt := h.n_lt
  r_lt := h.r_lt
  busy_clear := nofun
  busy_cmd := nofun
  fresh := nofun
  prime_src := nofun
  illegal_src := fun _ => ⟨fun _ => ⟨why, hd⟩, fun _ => rfl⟩
  invalid_src := nofun
  no_inverse_src := nofun
  temps_wf := h.temps_wf

/-- The completion of the running command, which is CMD_LAST, has the errors of its command (R113, R171). -/
theorem complete (h : s.Inv) {op : Op} {c : Completion} (hp : s.phase = .busy op) (hc : c.Sound op) :
    (s.complete c).Inv where
  a_lt := h.a_lt
  e_lt := h.e_lt
  n_lt := h.n_lt
  r_lt := complete_r_lt c h.r_lt
  busy_clear := nofun
  busy_cmd := nofun
  fresh := nofun
  prime_src := fun hprime => by
    obtain ⟨herr, hop⟩ := hc.prime_src hprime
    rw [complete_cmdLast, h.busy_cmd op hp]
    obtain rfl | rfl := hop
    · exact ⟨herr, .inl rfl⟩
    · exact ⟨herr, .inr rfl⟩
  illegal_src := fun _ => by
    rw [complete_cmdLast, h.busy_cmd op hp, decode_encode]
    exact ⟨fun herr => absurd herr hc.not_illegal, nofun⟩
  invalid_src := fun herr => by
    obtain ⟨hop, hr, hrounds⟩ := hc.invalid_src herr
    rw [complete_cmdLast, h.busy_cmd op hp, complete_r_zero s hr, complete_mrRounds_zero s hrounds]
    obtain rfl | rfl | rfl := hop <;> simp [Op.instr]
  no_inverse_src := fun herr => by
    obtain ⟨rfl, hr, hrounds⟩ := hc.no_inverse_src herr
    exact ⟨h.busy_cmd .modinv hp, complete_r_zero s hr, complete_mrRounds_zero s hrounds⟩
  temps_wf := h.temps_wf

end State.Inv

/-- Every effect of a step keeps the run invariant. -/
theorem StepEffect.inv {s t : State} (h : StepEffect s t) (hs : s.Inv) : t.Inv := by
  cases h with
  | quiet p f k pc m hm =>
    refine hs.frame ?_
    obtain rfl | ⟨i, v, rfl⟩ := hm
    · exact hs.temps_wf
    · exact tempSet_wf hs.temps_wf i v
  | reset p pc _ => exact (State.Inv.blockReset hs.temps_wf).frame hs.temps_wf
  | complete hp hc => exact State.Inv.complete (hs.frame hs.temps_wf) hp (completionOf_sound hc)
  | drop hb _ _ => exact hs.served.dropWrite hb
  | irqEn _ => exact hs.served.frame hs.temps_wf
  | intstat _ => exact hs.served.writeIntstat _
  | iter _ _ => exact hs.served.frame hs.temps_wf
  | operand x _ hi => exact hs.served.setOperandWord x _ hi
  | take _ _ => exact hs.served.take _
  | nop _ _ => exact hs.served.nop
  | illegal _ _ hd => exact hs.served.takeIllegal hd

/-! ## A word write keeps the engine's registers (R62) -/

section
variable (x : OperandReg) (i : Nat) (w : Word) (s : State)

@[simp] theorem setOperandWord_phase : (s.setOperandWord x i w).phase = s.phase := by cases x <;> rfl
@[simp] theorem setOperandWord_r : (s.setOperandWord x i w).r = s.r := by cases x <;> rfl
@[simp] theorem setOperandWord_done : (s.setOperandWord x i w).done = s.done := by cases x <;> rfl
@[simp] theorem setOperandWord_prime : (s.setOperandWord x i w).prime = s.prime := by cases x <;> rfl
@[simp] theorem setOperandWord_err : (s.setOperandWord x i w).err = s.err := by cases x <;> rfl
@[simp] theorem setOperandWord_mrRounds : (s.setOperandWord x i w).mrRounds = s.mrRounds := by
  cases x <;> rfl
@[simp] theorem setOperandWord_werr : (s.setOperandWord x i w).werr = s.werr := by cases x <;> rfl
@[simp] theorem setOperandWord_doneIrq : (s.setOperandWord x i w).doneIrq = s.doneIrq := by cases x <;> rfl

end

/-! ## The obligations -/

/-- Settles O4, effect by effect. -/
theorem stepKeepsTheInvariant : Obligations.StepKeepsTheInvariant :=
  fun _ _ hs h => (stepEffect_of_step h).inv hs

/-- Settles O45: of the effects of a step, the take, the completion, NOP, the illegal word and the reset
are the four other cases, and the rest keep the phase and the results. -/
theorem onlyCompletionsWriteResults : Obligations.OnlyCompletionsWriteResults := by
  intro s t h
  cases stepEffect_of_step h with
  | @take op hp hw =>
    right; left
    exact ⟨hp, ⟨op, hw, by simp⟩, by simp⟩
  | @complete op c hp hc =>
    right; right; left
    exact ⟨⟨op, hp, exec_complete (s := s.tick) hp hc⟩, by simp⟩
  | nop hp hw =>
    right; right; right; left
    exact ⟨hp, ⟨_, hw, by simp [nopCompletion]⟩, by simp [nopCompletion]⟩
  | illegal hp hw hd =>
    right; right; right; left
    exact ⟨hp, ⟨_, hw, by simp [State.takeIllegal, illegalCompletion, hd]⟩,
      by simp [State.takeIllegal, illegalCompletion]⟩
  | reset p pc hr =>
    right; right; right; right
    exact ⟨hr, rfl, rfl, rfl, rfl, rfl, rfl, blockReset_statusWord s, blockReset_ctrlWord s,
      blockReset_intstatWord s, rfl, rfl⟩
  | _ => exact .inl (by simp)

/-- Settles O46: an effect other than a reset or an INTSTAT write keeps DONE_IRQ or sets it. -/
theorem pendingInterruptIsKept : Obligations.PendingInterruptIsKept := by
  intro s t h h1 h0
  cases stepEffect_of_step h with
  | reset _ _ hr => exact .inl hr
  | @intstat w hw => exact .inr ⟨w, by simpa [h1, intstatClear] using h0, hw⟩
  | illegal _ _ _ => simp [State.takeIllegal] at h0
  | _ => simp [h1] at h0

/-- Settles O47: only the dropped write sets WERR, and only the takes and the reset clear it. -/
theorem writeErrorIsSticky : Obligations.WriteErrorIsSticky := by
  intro s t h
  constructor
  · intro h0 h1
    cases stepEffect_of_step h with
    | drop hb hw ho => exact ⟨hb, ⟨_, _, hw, ho⟩, rfl⟩
    | illegal _ _ _ => simp [State.takeIllegal] at h1
    | _ => simp [h0] at h1
  · intro h1 h0
    cases stepEffect_of_step h with
    | take hp hw =>
      left
      simp [hp, hw]
    | nop hp hw =>
      left
      simp [nopCompletion, hp, hw]
    | illegal hp hw hd =>
      left
      simp [State.takeIllegal, illegalCompletion, hp, hw, hd]
    | reset _ _ hr => exact .inr ⟨hr, rfl, rfl, rfl⟩
    | _ => simp [h1] at h0

/-- Settles O1: each register reads 0 but ITER, ID and PARAM. -/
theorem resetLeavesTheStatedValues : Obligations.ResetLeavesTheStatedValues := by
  refine ⟨fun s x => ⟨?_, Nat.zero_mod _, rfl, blockReset_statusWord s, blockReset_ctrlWord s,
    blockReset_intstatWord s, ?_, ?_, rfl, rfl, rfl, rfl⟩, fun c => rfl⟩
  · cases x <;> exact Nat.zero_mod _
  · simp [State.iterWord]
  · simp [State.roundsWord]

/-- Settles O3: the state after reset is a reset of itself. -/
theorem invariantHoldsAfterReset : Obligations.InvariantHoldsAfterReset :=
  fun c => State.Inv.blockReset (s := State.resetOf c) rfl

/-- Settles O40: the three offsets name their registers. -/
theorem controlRegisterWrites : Obligations.ControlRegisterWrites := by
  refine fun s w => ⟨fun hsrst => ?_, rfl, fun hp => ?_⟩
  · show Host.Outcome.next (State.writeCtrl w (s.respond .writeOkay)) = _
    rw [State.writeCtrl, ctrlSrst, hsrst]
    rfl
  · have hb : (s.respond .writeOkay).busy = false := busy_idle hp
    show Host.Outcome.next (State.writeIter w (s.respond .writeOkay)) = _
    rw [State.writeIter, hb, iterField, ← BitVec.setWidth_eq_extractLsb' (by decide)]
    rfl

/-- Settles O41, field by field of PARAM. -/
theorem idAndParamAreConstants : Obligations.IdAndParamAreConstants := fun s =>
  ⟨rfl, paramWord_opw s.cfg, paramWord_expForm s.cfg, paramWord_reserved s.cfg⟩

/-- Settles O42, field by field. -/
theorem statusRegisterLayouts : Obligations.StatusRegisterLayouts := by
  intro s
  refine ⟨⟨?_, statusWord_done s, statusWord_werr s, statusWord_prime s, statusWord_reserved_low s,
    ?_, ?_, ?_, ?_, statusWord_reserved_high s⟩,
    ⟨flagWord_getLsbD_zero _, BitVec.extractLsb'_append_eq_left⟩,
    ⟨flagWord_getLsbD_zero _, BitVec.extractLsb'_append_eq_left⟩,
    ⟨BitVec.extractLsb'_append_eq_right, BitVec.extractLsb'_append_eq_left⟩,
    ⟨BitVec.extractLsb'_append_eq_right, BitVec.extractLsb'_append_eq_left⟩⟩
  · rw [statusWord_busy, busy_eq_true_iff]
  all_goals rw [statusWord_err]
  · exact s.err.code_eq_iff .ok
  · exact s.err.code_eq_iff .illegalCmd
  · exact s.err.code_eq_iff .invalidArgument
  · exact s.err.code_eq_iff .noInverse

end Sys2Proof.Machine
end

section
/-! PROOFS. The statements on 20_memory.md. First which place an offset names; then one rule for a read and
one for a write at a place, well formed or not; then the registers as numbers, and words from bytes. -/

namespace Sys2Proof.Machine

/-! ## The place of an offset (R61, R65) -/

theorem controlLoc_of_ge {k : Nat} (h : 8 ≤ k) : controlLoc k = .reserved := by
  obtain ⟨j, rfl⟩ := Nat.exists_eq_add_of_le' h
  rfl

theorem windowLoc_of_ge {words k : Nat} (mk : Nat → Loc) (h : words ≤ k) :
    windowLoc words k mk = .reserved :=
  if_neg (by omega)

/-- Below 0x200 an offset names a control register by its word index. -/
theorem locate_control (c : Config) {off : Offset} (h : off.toNat < 0x200) :
    locate c off = controlLoc (off.toNat / 4) := by
  rw [locate, show off.toNat / 0x200 = 0 by omega, show off.toNat % 0x200 = off.toNat by omega]
  rfl

/-- From 0x800 to 0x9FF an offset names a word of the R window. -/
theorem locate_result (c : Config) {off : Offset} (hlo : 0x800 ≤ off.toNat) (hhi : off.toNat < 0xA00) :
    locate c off = windowLoc c.words (off.toNat % 0x200 / 4) .result := by
  rw [locate, show off.toNat / 0x200 = 4 by omega]
  rfl

/-- In a window the words of index OPW/32 or more are reserved. -/
theorem locate_beyond_words {c : Config} {off : Offset} (hlo : 0x200 ≤ off.toNat)
    (hw : c.words ≤ off.toNat % 0x200 / 4) : locate c off = .reserved := by
  unfold locate
  split
  · omega
  · exact windowLoc_of_ge _ hw
  · exact windowLoc_of_ge _ hw
  · exact windowLoc_of_ge _ hw
  · exact windowLoc_of_ge _ hw
  · rfl

/-- From 0xA00 up everything is reserved. -/
theorem locate_above_windows (c : Config) {off : Offset} (h : 0xA00 ≤ off.toNat) :
    locate c off = .reserved := by
  obtain ⟨j, hj⟩ : ∃ j, off.toNat / 0x200 = j + 5 := Nat.exists_eq_add_of_le' (by omega)
  rw [locate, hj]
  rfl

/-- The reserved places of R65. -/
theorem locate_reserved {c : Config} {off : Offset}
    (h : (0x020 ≤ off.toNat ∧ off.toNat < 0x200) ∨ 0xA00 ≤ off.toNat ∨
      (0x200 ≤ off.toNat ∧ off.toNat < 0xA00 ∧ c.words ≤ off.toNat % 0x200 / 4)) :
    locate c off = .reserved := by
  obtain ⟨hlo, hhi⟩ | habove | ⟨hlo, _, hw⟩ := h
  · rw [locate_control c hhi]
    exact controlLoc_of_ge (by omega)
  · exact locate_above_windows c habove
  · exact locate_beyond_words hlo hw

/-! ## One transaction (R64, R68, R69) -/

@[simp] theorem respond_busy (p : Response) (s : State) : (s.respond p).busy = s.busy := rfl

@[simp] theorem respond_peek (p : Response) (s : State) (l : Loc) : (s.respond p).peek l = s.peek l := rfl

@[simp] theorem respond_respond (p q : Response) (s : State) :
    (s.respond p).respond q = s.respond q := rfl

theorem wellFormedAccess_eq_false_iff (size : Size) (off : Offset) :
    wellFormedAccess size off = false ↔ size ≠ .b32 ∨ off.toNat % 4 ≠ 0 := by
  simp only [wellFormedAccess, aligned, Bool.and_eq_false_iff, decide_eq_false_iff_not, ne_eq]

theorem memRead_of_bad {size : Size} {off : Offset} (h : wellFormedAccess size off = false) (s : State) :
    memRead size off s = s.respond .readError := by
  simp [memRead, h]

theorem memWrite_of_bad {size : Size} {off : Offset} (h : wellFormedAccess size off = false) (w : Word)
    (s : State) : memWrite size off w s = .next (s.respond .writeError) := by
  simp [memWrite, h]

theorem memWrite_of_aligned {off : Offset} (h : aligned off = true) (w : Word) (s : State) :
    memWrite .b32 off w s = writeLoc (locate s.cfg off) w (s.respond .writeOkay) := by
  simp [memWrite, wellFormedAccess, h]

/-- A read returns what stands at its place, but for a word of R while BUSY (R68). -/
theorem memRead_of_wellFormed {size : Size} {off : Offset} {s : State}
    (h : wellFormedAccess size off = true) (hs : s.busy = false ∨ ∀ i, locate s.cfg off ≠ .result i) :
    memRead size off s = s.respond (.readOkay (s.peek (locate s.cfg off))) := by
  rw [memRead, if_pos h, State.readAccess]
  split
  · next i hi =>
    obtain hb | hne := hs
    · simp [hb, hi]
    · exact absurd hi (hne i)
  · rfl

theorem memRead_of_aligned {off : Offset} {s : State} (h : aligned off = true)
    (hs : s.busy = false ∨ ∀ i, locate s.cfg off ≠ .result i) :
    memRead .b32 off s = s.respond (.readOkay (s.peek (locate s.cfg off))) :=
  memRead_of_wellFormed (by simp [wellFormedAccess, h]) hs

/-- A read of a place that is no word of R returns what stands there, BUSY or not. -/
theorem memRead_of_locate {off : Offset} {s : State} {l : Loc} (h : aligned off = true)
    (hl : locate s.cfg off = l) (hne : ∀ i, l ≠ .result i) :
    memRead .b32 off s = s.respond (.readOkay (s.peek l)) := by
  subst hl
  exact memRead_of_aligned h (.inr hne)

/-- The places that R65 and R66 name ignore a write. -/
theorem memWrite_of_ignored {off : Offset} {w : Word} {s : State} (h : aligned off = true)
    (hl : ∀ t, writeLoc (locate s.cfg off) w t = .next t) :
    memWrite .b32 off w s = .next (s.respond .writeOkay) := by
  rw [memWrite_of_aligned h, hl]

theorem writeLoc_result_window (words k : Nat) (w : Word) (s : State) :
    writeLoc (windowLoc words k .result) w s = .next s := by
  unfold windowLoc
  split <;> rfl

/-- A write of a word of A, E or N reaches that word (R62). -/
theorem memWrite_operand_offset {s : State} (x : OperandReg) {i : Nat} (w : Word) (hi : i < s.cfg.words) :
    memWrite .b32 (BitVec.ofNat 12 (x.offset + 4 * i)) w s =
      .next ((s.respond .writeOkay).writeOperand x i w) := by
  have hw := (words_bounds s.cfg).2
  rw [memWrite_of_aligned (aligned_operand_offset x (by omega)), locate_operand_offset _ x hi]
  rfl

theorem memRead_operand_offset {s : State} (x : OperandReg) {i : Nat} (hi : i < s.cfg.words) :
    memRead .b32 (BitVec.ofNat 12 (x.offset + 4 * i)) s =
      s.respond (.readOkay (wordAt (s.val x) i)) := by
  have hw := (words_bounds s.cfg).2
  exact memRead_of_locate (aligned_operand_offset x (by omega)) (locate_operand_offset _ x hi) nofun

theorem aligned_result_offset (i : Nat) :
    aligned (BitVec.ofNat 12 (resultOffset + 4 * i)) = true := by
  rw [aligned_iff, BitVec.toNat_ofNat, resultOffset]
  omega

/-- A word of R on an idle engine reads as it stands. -/
theorem memRead_result_offset {s : State} {i : Nat} (hi : i < s.cfg.words) (hb : s.busy = false) :
    memRead .b32 (BitVec.ofNat 12 (resultOffset + 4 * i)) s = s.respond (.readOkay (wordAt s.valR i)) := by
  rw [memRead_of_aligned (aligned_result_offset i) (.inl hb), locate_result_offset _ hi]
  rfl

/-- While BUSY a word of R reads a free value (R68, U1). -/
theorem memRead_result_busy {s : State} {i : Nat} (hi : i < s.cfg.words) (hb : s.busy = true) :
    ∃ w f, memRead .b32 (BitVec.ofNat 12 (resultOffset + 4 * i)) s =
      { s with resp := some (.readOkay w), freeCount := f } := by
  refine ⟨Config.unspecWord s.freeCount, s.freeCount + 1, ?_⟩
  simp [memRead, wellFormedAccess, aligned_result_offset i, State.readAccess,
    locate_result_offset _ hi, hb]

/-- A write of a word of A, E or N while BUSY is dropped (R67). -/
theorem memWrite_operand_busy {s : State} (x : OperandReg) {i : Nat} (w : Word) (hb : s.busy = true)
    (hi : i < s.cfg.words) :
    memWrite .b32 (BitVec.ofNat 12 (x.offset + 4 * i)) w s = .next (s.respond .writeOkay).dropWrite := by
  rw [memWrite_operand_offset x w hi, State.writeOperand, respond_busy, if_pos hb]

/-- An ITER write while BUSY is dropped (R67). -/
theorem memWrite_iter_busy {s : State} (w : Word) (hb : s.busy = true) :
    memWrite .b32 offIter w s = .next (s.respond .writeOkay).dropWrite :=
  congrArg Host.Outcome.next (if_pos hb)

/-- A CMD write while BUSY is dropped (R67). -/
theorem memWrite_cmd_busy {s : State} (w : Word) (hb : s.busy = true) :
    memWrite .b32 offCmd w s = .next (s.respond .writeOkay).dropWrite :=
  if_pos hb

/-- A CTRL write with SRST resets the block, BUSY or not (R32, R191). -/
theorem memWrite_ctrl_srst {s : State} {w : Word} (h : w.getLsbD 2 = true) :
    memWrite .b32 offCtrl w s = .next (s.respond .writeOkay).blockReset :=
  congrArg Host.Outcome.next (if_pos h)

/-! ## The registers as numbers (R24, R26, R32 to R35) -/

theorem toNat_append_eq_add {m k : Nat} (x : BitVec m) (y : BitVec k) :
    (x ++ y).toNat = 2 ^ k * x.toNat + y.toNat := by
  rw [BitVec.toNat_append, ← Nat.shiftLeft_add_eq_or_of_lt y.isLt, Nat.shiftLeft_eq, Nat.mul_comm]

theorem flagWord_eq (b : Bool) : 0#31 ++ BitVec.ofBool b = (if b then 1 else 0 : Word) := by
  cases b <;> rfl

theorem zero_append_eq_setWidth (x : BitVec 16) : 0#16 ++ x = x.setWidth 32 := by
  rw [BitVec.setWidth_eq_append (by decide)]
  rfl

theorem paramWord_eq (c : Config) :
    paramWord c = BitVec.ofNat 32 (c.opw + if c.expForm = .montgomery then 2 ^ 16 else 0) := by
  have hw := (words_bounds c).2
  have ho := opw_eq c
  apply BitVec.eq_of_toNat_eq
  rw [paramWord, toNat_append_eq_add, toNat_append_eq_add, BitVec.toNat_ofNat, BitVec.toNat_ofNat]
  cases c.expForm <;> simp [ExpForm.bit] <;> omega

/-- While BUSY, STATUS shows BUSY and WERR alone (R68). -/
theorem statusWord_of_busy {s : State} (hs : s.Inv) (hb : s.busy = true) :
    s.statusWord = if s.werr then 0x00000005 else 0x00000001 := by
  obtain ⟨hdone, hprime, herr⟩ := hs.busy_clear hb
  rw [State.statusWord, hdone, hprime, herr, hb]
  cases s.werr <;> rfl

/-! ## Command words from bytes (R63, R94) -/

theorem decode_eq_ok_iff (w : Word) (i : Instr) : decode w = .ok i ↔ w = encode i :=
  ⟨eq_encode_of_decode, fun h => h ▸ decode_encode i⟩

theorem wordOfBytes_toNat (b0 b1 b2 b3 : Byte) :
    (wordOfBytes b0 b1 b2 b3).toNat =
      b0.toNat + 2 ^ 8 * b1.toNat + 2 ^ 16 * b2.toNat + 2 ^ 24 * b3.toNat := by
  rw [wordOfBytes, toNat_append_eq_add, toNat_append_eq_add, toNat_append_eq_add]
  omega

theorem decodeBytes_eq_ok_iff (b0 b1 b2 b3 : Byte) (rest : List Byte) (i : Instr) :
    decodeBytes (b0 :: b1 :: b2 :: b3 :: rest) = .ok (i, rest) ↔
      decode (wordOfBytes b0 b1 b2 b3) = .ok i := by
  rw [decodeBytes]
  cases decode (wordOfBytes b0 b1 b2 b3) <;> simp

/-! ## MRTEST's draws (R153) -/

theorem drawsWitnesses_iff (s : State) :
    s.drawsWitnesses = true ↔
      s.phase = .busy .mrtest ∧ 5 ≤ s.val .n ∧ s.val .n % 2 = 1 ∧ s.iter ≠ 0 := by
  unfold State.drawsWitnesses
  split
  · next hp => simp [hp]
  · next hne => exact ⟨nofun, fun ⟨hp, _⟩ => absurd hp hne⟩

/-! ## The obligations -/

/-- Settles O10: the word of four bytes has the number of the statement, and decodes only as its command. -/
theorem commandBytesAreLittleEndian : Obligations.CommandBytesAreLittleEndian := by
  intro b0 b1 b2 b3 rest i
  rw [decodeBytes_eq_ok_iff, decode_eq_ok_iff, ← BitVec.toNat_inj, wordOfBytes_toNat, eq_comm]

/-- Settles O24: ent_req has the draws as a conjunct, and a test that waits for an answer draws. -/
theorem entropyRequestFollowsTheDraws : Obligations.EntropyRequestFollowsTheDraws := by
  refine ⟨fun s h => (drawsWitnesses_iff s).mp ?_, fun s hw hd => entReq_of_waits hw hd⟩
  rw [State.entReq, Bool.and_eq_true] at h
  obtain ⟨hdraws, _⟩ := h
  exact hdraws

/-- Settles O33: those offsets name the reserved place. -/
theorem reservedPlacesReadZeroIgnoreWrites : Obligations.ReservedPlacesReadZeroIgnoreWrites := by
  intro s off w h4 h
  have ha := (aligned_iff off).mpr h4
  have hl : locate s.cfg off = .reserved := locate_reserved h
  exact ⟨memRead_of_locate ha hl nofun, memWrite_of_ignored ha fun t => by rw [hl]; rfl⟩

/-- Settles O35: each write by its place; then, of the effects of a step, those that leave a command running
keep the operands and ITER. -/
theorem busyWritesAreDropped : Obligations.BusyWritesAreDropped := by
  refine ⟨fun s w hb => ?_, fun s t op op' hp hp' h => ?_⟩
  · obtain ⟨hctrl, hintstat, _⟩ := controlRegisterWrites s w
    exact ⟨fun x _ => memWrite_operand_busy x w hb, memWrite_iter_busy w hb, memWrite_cmd_busy w hb,
      hctrl, memWrite_ctrl_srst, hintstat⟩
  · have hbusy : s.phase ≠ .idle := by simp [hp]
    cases stepEffect_of_step h with
    | reset | complete | nop | illegal => cases hp'
    | iter hidle | operand _ hidle | take hidle => exact absurd hidle hbusy
    | quiet | drop | irqEn | intstat => exact ⟨Phase.busy.inj (hp'.symm.trans hp), rfl, rfl, rfl, rfl⟩

/-- Settles O36: an offset names its place, and the registers there are those numbers. -/
theorem readsReturnTheCurrentValue : Obligations.ReadsReturnTheCurrentValue := by
  refine ⟨fun s off h4 hs => memRead_of_aligned ((aligned_iff off).mpr h4) hs,
    fun s => ⟨rfl, ?_, rfl, rfl, ?_, ?_, ?_, ?_⟩,
    fun s i hi => ⟨memRead_operand_offset .a hi, memRead_operand_offset .e hi, memRead_operand_offset .n hi,
      memRead_result_offset hi, memRead_result_busy hi⟩, fun s hs hb => ?_⟩
  · rw [← paramWord_eq]; rfl
  · rw [← flagWord_eq]; rfl
  · rw [← flagWord_eq]; rfl
  · rw [← zero_append_eq_setWidth]; rfl
  · rw [← zero_append_eq_setWidth]; rfl
  · rw [← statusWord_of_busy hs hb]; rfl

/-- Settles O37: the second read finds the same place with the same word, or the same error. -/
theorem readsHaveNoSideEffect : Obligations.ReadsHaveNoSideEffect := by
  refine fun s size off => ⟨memRead_eq size off s, fun hs => ?_⟩
  cases hwf : wellFormedAccess size off with
  | false => rw [memRead_of_bad hwf, memRead_of_bad hwf, respond_respond]
  | true =>
    rw [memRead_of_wellFormed hwf hs, memRead_of_wellFormed (s := s.respond _) hwf hs, respond_peek,
      respond_cfg, respond_respond]

/-- Settles O38: the written value is the old one with that word set. -/
theorem operandWordIsWritten : Obligations.OperandWordIsWritten := by
  intro s x i w hp hi
  refine ⟨setWordAt (s.val x) i w, ?_, setOperandWord_val_lt w hi, ?_, fun j _ hne => ?_⟩
  · have hb : (s.respond .writeOkay).busy = false := busy_idle hp
    rw [memWrite_operand_offset x w hi, State.writeOperand, hb]
    rfl
  · rw [wordAt_setWordAt, if_pos rfl]
  · rw [wordAt_setWordAt, if_neg hne]

/-- Settles O32: such an access is not well formed. -/
theorem badAccessGetsErrorOnly : Obligations.BadAccessGetsErrorOnly := by
  intro s size off w h
  have hwf := (wellFormedAccess_eq_false_iff size off).mpr h
  rw [memRead_of_bad hwf, memWrite_of_bad hwf]
  exact ⟨rfl, rfl, rfl⟩

/-- Settles O34: each of these places ignores a write. -/
theorem readOnlyPlacesIgnoreWrites : Obligations.ReadOnlyPlacesIgnoreWrites := by
  intro s off w h
  have ha : aligned off = true := (aligned_iff off).mpr (by omega)
  refine memWrite_of_ignored ha fun t => ?_
  obtain h | h | h | h | ⟨hlo, hhi, _⟩ := h
  case inr.inr.inr.inr =>
    rw [locate_result s.cfg hlo hhi]
    exact writeLoc_result_window _ _ w t
  all_goals
    rw [locate_control s.cfg (by omega), h]
    rfl

end Sys2Proof.Machine
end

section
/-! PROOFS. The statements on 30_encoding.md. First which words decode; then one host line at its step, by
its kind; then the words of an operand as LDOP and LDOP0 write them. -/

namespace Sys2Proof.Machine

/-! ## Illegal words (R91, R95) -/

theorem decode_eq_error_iff (w : Word) :
    (∃ why, decode w = .error why) ↔ (rsvOf w ≠ 0 ∨ 5 ≤ (opcOf w).toNat) := by
  unfold decode
  split
  · next hrsv => exact ⟨fun _ => .inl hrsv, fun _ => ⟨_, rfl⟩⟩
  · next hrsv =>
    split
    case h_6 _ h0 h1 h2 h3 h4 =>
      simp only [imp_false] at h0 h1 h2 h3 h4
      exact ⟨fun _ => .inr (by omega), fun _ => ⟨_, rfl⟩⟩
    all_goals
      next hopc =>
        rw [hopc]
        exact ⟨nofun, fun h => absurd (h.resolve_left hrsv) (by decide)⟩

/-! ## The host's line (R98) -/

theorem HostAgent.next_eq_some {h : HostAgent} {op : HostOp} (hline : h.prog[h.pc]? = some op)
    (hready : h.ready op = true) : h.next = some op := by
  rw [HostAgent.next, hline]
  exact if_pos hready

/-- The line at offset `i` in the middle part of a program. -/
theorem getElem?_middle {prog pre mid post : List HostOp} {op : HostOp} {i : Nat}
    (hprog : prog = pre ++ mid ++ post) (hop : mid[i]? = some op) : prog[pre.length + i]? = some op := by
  obtain ⟨hi, _⟩ := List.getElem?_eq_some_iff.mp hop
  rw [hprog, List.append_assoc, List.getElem?_append_right (by omega), Nat.add_sub_cancel_left,
    List.getElem?_append_left hi, hop]

/-- A read does not see the host or the samples of rst_n. -/
theorem memRead_tick_advance (size : Size) (off : Offset) (s : State) :
    memRead size off s.tick.advance = (memRead size off s).tick.advance := by
  have hb : s.tick.advance.busy = s.busy := rfl
  unfold memRead State.readAccess
  simp only [tick_cfg, advance_cfg, hb]
  split
  · split
    · split <;> rfl
    · rfl
  · rfl

theorem memRead_host (size : Size) (off : Offset) (s : State) : (memRead size off s).host = s.host := by
  obtain ⟨_, _, h⟩ := memRead_eq size off s
  rw [h]

theorem step_rd {s : State} {off : Offset} {k : Temp} (hr : s.rstN.head? ≠ some false)
    (ht : s.tick.engineTurn = false) (hn : s.host.next = some (.rd off k)) :
    step s = .next ((memRead .b32 off s).tick.advance.setTemp k (memRead .b32 off s).lastData.toNat) := by
  rw [step_host ((rstAsserted_eq_false_iff s).mpr hr) ht hn, hostOp, State.readInto, memRead_tick_advance]
  rfl

theorem jump_eq {s : State} {l : Label} {p : Nat} (h : labelPos s.host.prog l = some p) :
    s.jump l = { s with host := { s.host with pc := p } } := by
  rw [State.jump, h]
  rfl

/-- A line that writes a word of A, E or N on an idle engine (R62). -/
theorem step_wr_operand {s : State} {x : OperandReg} {i : Nat} {src : Src} (hr : s.rstN.head? ≠ some false)
    (hp : s.phase = .idle) (hi : i < s.cfg.words)
    (hn : s.host.next = some (.wr (BitVec.ofNat 12 (x.offset + 4 * i)) src)) :
    step s = .next (s.served.setOperandWord x i (s.host.srcWord src)) := by
  have hsrc : s.tick.advance.host.srcWord src = s.host.srcWord src := by cases src <;> rfl
  have hb : s.served.busy = false := busy_idle hp
  rw [step_idle_host hr hp hn, hostOp, hsrc, memWrite_operand_offset (s := s.tick.advance) x _ hi,
    State.writeOperand, hb]
  rfl

/-! ## An operand's words written (R62) -/

/-- Writing word `i` of `v` on a number that agrees with `v` below word `i`. -/
theorem setWordAt_wordAt_mod {u v i : Nat} (h : u % 2 ^ (32 * i) = v % 2 ^ (32 * i)) :
    setWordAt u i (wordAt v i) % 2 ^ (32 * (i + 1)) = v % 2 ^ (32 * (i + 1)) := by
  have hlow : setWordAt u i (wordAt v i) % 2 ^ (32 * i) = v % 2 ^ (32 * i) := by
    rw [setWordAt, Nat.add_mul_mod_self_left, Nat.mod_mod, h]
  rw [← sumWords_eq, ← sumWords_eq, sumWords, sumWords, wordAt_setWordAt, if_pos rfl, sumWords_eq,
    sumWords_eq, hlow]

theorem setWordAt_zero_of_lt {u : Nat} (w : Word) (h : u < 2 ^ 32) : setWordAt u 0 w = w.toNat := by
  rw [setWordAt, Nat.mul_zero, Nat.pow_zero, Nat.mod_one, Nat.zero_add, Nat.one_mul, Nat.mul_one,
    Nat.div_eq_of_lt h, Nat.mul_zero, Nat.add_zero]

theorem setOperandWord_val {s : State} (x : OperandReg) {i : Nat} (w : Word) (hi : i < s.cfg.words) :
    (s.setOperandWord x i w).val x = setWordAt (s.val x) i w := by
  have hlt := setOperandWord_val_lt (s := s) (x := x) w hi
  cases x <;> exact Nat.mod_eq_of_lt hlt

theorem srcWord_temp_toNat {h : HostAgent} {k : Temp} (h0 : 0 ≤ tempGet h.temps k)
    (hlt : tempGet h.temps k < 2 ^ 32) : ((h.srcWord (.temp k)).toNat : Int) = tempGet h.temps k := by
  rw [HostAgent.srcWord, BitVec.toNat_ofInt]
  omega

/-! ## Host writes to one operand register -/

/-- `t` differs from `s` only in the operand register `x`, the host's position, the schedule, the samples of
rst_n and the port's answer: what word writes to `x` may change. -/
def State.SameBut (x : OperandReg) (s t : State) : Prop :=
  ∃ u pc wait rst p, t = { s.setRaw u x with
    rstN := rst, wait := wait, resp := p, host := { s.host with pc := pc } }

namespace State.SameBut

variable {x : OperandReg} {s t : State}

theorem refl (x : OperandReg) (s : State) : s.SameBut x s :=
  ⟨s.raw x, s.host.pc, s.wait, s.rstN, s.resp, by cases x <;> rfl⟩

theorem write (h : s.SameBut x t) (i : Nat) (w : Word) : s.SameBut x (t.served.setOperandWord x i w) := by
  obtain ⟨u, pc, wait, rst, p, rfl⟩ := h
  exact ⟨_, pc + 1, wait - 1, rst.tail, some .writeOkay, by cases x <;> rfl⟩

theorem cfg (h : s.SameBut x t) : t.cfg = s.cfg := by
  obtain ⟨_, _, _, _, _, rfl⟩ := h
  cases x <;> rfl

theorem phase (h : s.SameBut x t) : t.phase = s.phase := by
  obtain ⟨_, _, _, _, _, rfl⟩ := h
  cases x <;> rfl

theorem prog (h : s.SameBut x t) : t.host.prog = s.host.prog := by
  obtain ⟨_, _, _, _, _, rfl⟩ := h
  rfl

theorem val_of_ne (h : s.SameBut x t) {y : OperandReg} (hne : y ≠ x) : t.val y = s.val y := by
  obtain ⟨_, _, _, _, _, rfl⟩ := h
  cases x <;> cases y
  case a.a | e.e | n.n => exact absurd rfl hne
  all_goals rfl

/-- No register but the operand changes. -/
theorem registers (h : s.SameBut x t) : t.valR = s.valR ∧ t.cmdLast = s.cmdLast ∧
    t.statusWord = s.statusWord ∧ t.ctrlWord = s.ctrlWord ∧ t.intstatWord = s.intstatWord ∧
    t.iter = s.iter ∧ t.mrRounds = s.mrRounds := by
  obtain ⟨_, _, _, _, _, rfl⟩ := h
  cases x <;> exact ⟨rfl, rfl, rfl, rfl, rfl, rfl, rfl⟩

end State.SameBut

/-! ## LDOP (R99) -/

/-- One step more at the end of a run that has not stopped. -/
theorem run_succ_of_next {M : Host.Core} {s t : M.State} {k : Nat} (h : M.run k s = .next t) :
    M.run (k + 1) s = M.step t := by
  induction k generalizing s with
  | zero =>
    cases h
    rw [Host.Core.run]
    cases M.step t <;> rfl
  | succ k ih =>
    rw [Host.Core.run] at h ⊢
    cases hs : M.step s with
    | next u =>
      rw [hs] at h
      exact ih h
    | fault _ => rw [hs] at h; cases h
    | refused _ => rw [hs] at h; cases h

/-- Line `i` of LDOP writes word `i` of its value. -/
theorem ldop_getElem? {c : Config} (x : OperandReg) (v : Nat) {i : Nat} (hi : i < c.words) :
    (Pseudo.ldop c x v)[i]? = some (.wr (BitVec.ofNat 12 (x.offset + 4 * i)) (.imm (wordAt v i))) := by
  simp [Pseudo.ldop, hi, wordAt]

/-- After `k` lines of LDOP the operand agrees with the value below word `k`. -/
theorem run_ldop {s : State} {x : OperandReg} {v : Nat} {pre post : List HostOp} (hp : s.phase = .idle)
    (hr : s.rstN = []) (hprog : s.host.prog = pre ++ Pseudo.ldop s.cfg x v ++ post)
    (hpc : s.host.pc = pre.length) {k : Nat} (hk : k ≤ s.cfg.words) :
    ∃ t : State, Sys2Proof.core.run k s = .next t ∧ s.SameBut x t ∧ t.rstN = [] ∧
      t.host.pc = pre.length + k ∧ t.val x % 2 ^ (32 * k) = v % 2 ^ (32 * k) := by
  induction k with
  | zero => exact ⟨s, rfl, .refl x s, hr, hpc, by rw [Nat.mul_zero, Nat.pow_zero, Nat.mod_one, Nat.mod_one]⟩
  | succ k ih =>
    obtain ⟨t, hrun, hsame, hrst, hline, hval⟩ := ih (by omega)
    have hi : k < t.cfg.words := hsame.cfg ▸ hk
    have hop := getElem?_middle hprog (ldop_getElem? x v (c := s.cfg) (i := k) hk)
    rw [← hsame.prog, ← hline] at hop
    have hstep := step_wr_operand (by simp [hrst]) (hsame.phase.trans hp) hi
      (HostAgent.next_eq_some hop rfl)
    refine ⟨_, (run_succ_of_next hrun).trans hstep, hsame.write k _, ?_, ?_, ?_⟩
    · cases x <;> exact congrArg List.tail hrst
    · cases x <;> exact congrArg Nat.succ hline
    · rw [setOperandWord_val (s := t.served) x _ hi]
      exact setWordAt_wordAt_mod hval

/-! ## The obligations -/

/-- Settles O7: `decode_encode` one way, and `eq_encode_of_decode` the other. -/
theorem decodeAndEncodeAgree : Obligations.DecodeAndEncodeAgree := decode_eq_ok_iff

/-- Settles O51: after all OPW/32 lines the operand agrees with the value on OPW bits. -/
theorem ldopLoadsTheValue : Obligations.LdopLoadsTheValue := by
  intro s x v pre post hp hr hv hprog hpc
  obtain ⟨t, hrun, hsame, _, hline, hval⟩ := run_ldop hp hr hprog hpc le_rfl
  obtain ⟨hR, hcmd, hstatus, hctrl, hintstat, hiter, hrounds⟩ := hsame.registers
  rw [← opw_eq, Nat.mod_eq_of_lt hv, Nat.mod_eq_of_lt (hsame.cfg ▸ val_lt t x)] at hval
  exact ⟨t, hrun, hval, fun _ => hsame.val_of_ne, hR, hsame.phase.trans hp, hcmd, hstatus, hctrl,
    hintstat, hiter, hrounds, hline⟩

/-- Settles O52: the line writes word 0, and the words above it are 0. -/
theorem ldop0LoadsTheValue : Obligations.Ldop0LoadsTheValue := by
  intro s x src pre post hp hr hx hsrc hprog hpc
  have hready : s.host.ready (.wr (BitVec.ofNat 12 x.offset) src) = true := by
    cases src with
    | imm w => rfl
    | temp k => exact decide_eq_true (hsrc k rfl)
  have hop := getElem?_middle (i := 0) hprog rfl
  rw [Nat.add_zero, ← hpc] at hop
  have hw : 0 < s.cfg.words := by have := words_bounds s.cfg; omega
  have hsame := (State.SameBut.refl x s).write 0 (s.host.srcWord src)
  obtain ⟨hR, hcmd, hstatus, hctrl, hintstat, hiter, hrounds⟩ := hsame.registers
  have hstep := step_wr_operand (i := 0) hr hp hw (HostAgent.next_eq_some hop hready)
  refine ⟨_, (s.host.srcWord src).toNat, hstep, ?_, ?_, ?_, fun _ => hsame.val_of_ne, hR, hsame.phase.trans hp, hcmd, hstatus, hctrl, hintstat, hiter,
    hrounds, ?_⟩
  · rintro w rfl
    rfl
  · rintro k rfl
    obtain ⟨h0, hlt⟩ := hsrc k rfl
    exact srcWord_temp_toNat h0 hlt
  · rw [setOperandWord_val (s := s.served) x _ hw, setWordAt_zero_of_lt (u := s.served.val x) _ hx]
  · cases x <;> rfl

/-- Settles O8: after RSV and the five opcodes only the error is left. -/
theorem illegalWordsAreExactlyTheUnassigned : Obligations.IllegalWordsAreExactlyTheUnassigned :=
  decode_eq_error_iff

/-- Settles O9: five command words, and three words by evaluation. -/
theorem opcodeMapWordsDecode : Obligations.OpcodeMapWordsDecode :=
  ⟨decode_encode .nop, decode_encode .modexp, decode_encode .modinv, decode_encode .mrtest,
    decode_encode .mrwit, by decide, by decide, by decide⟩

/-- Settles O53: the read leaves the host as it is, and the canonical form makes the write readable. -/
theorem hostReadFillsItsTemporary : Obligations.HostReadFillsItsTemporary := by
  intro s off k hr ht hn hwf
  have hget := tempGet_tempSet hwf k (v := (memRead .b32 off s).lastData.toNat)
  refine ⟨_, step_rd hr ht hn, ?_, ?_, fun u hu => ?_⟩
  · simp [memRead_host]
  · simp [memRead_host, hget]
  · simp [memRead_host, hget, hu]

/-- Settles O54: the test is `maskedNonzero_iff`, and a jump goes to the label's position. -/
theorem hostBranchesFollowTheirTest : Obligations.HostBranchesFollowTheirTest := by
  intro s k mask l p hr ht hl
  have hjump := jump_eq (s := s.tick.advance) hl
  have hstep {op : HostOp} (hn : s.host.next = some op) :=
    step_host ((rstAsserted_eq_false_iff s).mpr hr) ht hn
  have htest := maskedNonzero_iff (tempGet s.tick.advance.host.temps k) mask
  refine ⟨fun hn => ⟨fun h => ?_, fun h => ?_⟩, fun hn => ⟨fun h => ?_, fun h => ?_⟩⟩ <;>
    rw [hstep hn, hostOp]
  · rw [if_pos (htest.mpr h), hjump]; rfl
  · rw [if_neg (mt htest.mp h)]; rfl
  · rw [if_pos (htest.mpr h)]; rfl
  · rw [if_neg (mt htest.mp h), hjump]; rfl

end Sys2Proof.Machine
end

section
/-! PROOFS. The statements on 40_command_control.md. First the takes that complete at once; then what a
completion leaves unchanged; then what a completion writes, which rests on the command, its operands and
the witnesses alone. -/

namespace Sys2Proof.Machine

/-! ## Commands that complete within their take (R111, R115) -/

/-- A completion that keeps R and MR_ROUNDS, on an engine that is IDLE and stays so. -/
theorem complete_keep_idle {s : State} (h : s.phase = .idle) (e : ErrCode) (p : Bool) :
    s.complete ⟨e, none, p, none⟩ = { s with done := true, err := e, prime := p, doneIrq := true } := by
  rw [State.complete, h]

/-- A CMD write of a word that spells no command, on an idle engine (R111). -/
theorem memWrite_cmd_illegal {s : State} {w : Word} {why : Illegal} (hp : s.phase = .idle)
    (hd : decode w = .error why) :
    memWrite .b32 offCmd w s = .next ((s.respond .writeOkay).takeIllegal w) := by
  have hb : (s.respond .writeOkay).busy = false := busy_idle hp
  show writeCmd w (s.respond .writeOkay) = _
  simp [writeCmd, hb, hd]

/-! ## What a completion leaves unchanged (R113) -/

@[simp] theorem consumeDraws_peek (k : Nat) (s : State) (l : Loc) :
    (s.consumeDraws k).peek l = s.peek l := by
  cases l with
  | operand x i => cases x <;> rfl
  | _ => rfl

/-- Of the window, a completion writes STATUS, INTSTAT, MR_ROUNDS and R at most. -/
theorem complete_peek (c : Completion) (s : State) {l : Loc} (hstatus : l ≠ .status)
    (hintstat : l ≠ .intstat) (hrounds : l ≠ .mrRounds) (hresult : ∀ i, l ≠ .result i) :
    (s.complete c).peek l = s.peek l := by
  cases l with
  | status => exact absurd rfl hstatus
  | intstat => exact absurd rfl hintstat
  | mrRounds => exact absurd rfl hrounds
  | result i => exact absurd rfl (hresult i)
  | operand x i => cases x <;> rfl
  | _ => rfl

/-- Only MRTEST draws witnesses (R152). -/
theorem drawsOf_eq_zero (c : Completion) {op : Op} (h : op ≠ .mrtest) : drawsOf c op = 0 := by
  cases op with
  | mrtest => exact absurd rfl h
  | _ => rfl

/-! ## What a completion writes (R113) -/

/-- The completion writes R with a value of at most `n`, and writes MR_ROUNDS. -/
def Completion.WritesUpTo (n : Nat) (c : Completion) : Prop :=
  ∃ v k, c.r = some v ∧ c.rounds = some k ∧ v ≤ n

theorem modexpCompletion_writes (s : State) :
    (modexpCompletion s.cfg (s.val .a) (s.val .e) (s.val .n)).WritesUpTo (s.val .n) := by
  unfold modexpCompletion
  split
  · exact ⟨_, _, rfl, rfl, Nat.zero_le _⟩
  · next hn =>
    rw [modExp_eq _ _ _ _ (val_lt s .n) (val_lt s .e)]
    exact ⟨_, _, rfl, rfl, (Nat.mod_lt _ (Nat.pos_of_ne_zero hn)).le⟩

theorem modinvCompletion_writes (b n : Nat) : (modinvCompletion b n).WritesUpTo n := by
  unfold modinvCompletion
  split
  · exact ⟨_, _, rfl, rfl, Nat.zero_le _⟩
  · split
    · exact ⟨_, _, rfl, rfl, Nat.zero_le _⟩
    · exact ⟨_, _, rfl, rfl, (inverseMod_lt b n (by omega)).le⟩

/-- The rounds run only for an odd candidate (R150). -/
theorem mrPre_rounds_odd {n m s : Nat} (h : mrPre n = .rounds m s) : n % 2 = 1 ∧ 3 ≤ n := by
  unfold mrPre at h
  split at h
  · cases h
  · split at h
    · cases h
    · omega

theorem mrtestCompletion_writes {c : Config} {n k : Nat} {draw : Nat → Option Nat} {r : Completion}
    (h : mrtestCompletion c n k draw = some r) : r.WritesUpTo n := by
  unfold mrtestCompletion at h
  split at h
  · cases h; exact ⟨_, _, rfl, rfl, Nat.zero_le _⟩
  · cases h; exact ⟨_, _, rfl, rfl, Nat.zero_le _⟩
  · next hpre =>
    have hodd := mrPre_rounds_odd hpre
    split at h
    · cases h; exact ⟨_, _, rfl, rfl, Nat.zero_le _⟩
    · obtain ⟨_, a, j, hr, hrounds, _, _, _, _, rfl | ⟨_, x, _, rfl⟩⟩ :=
        mrLoop_cases _ _ _ _ _ _ _ _ _ h
      · exact ⟨_, _, hr, hrounds, Nat.zero_le _⟩
      · obtain ⟨_, hle⟩ := drawWitness_mem 2 (n - 2) x (by omega)
        exact ⟨_, _, hr, hrounds, by omega⟩

theorem mrwitCompletion_writes (c : Config) (n a : Nat) : (mrwitCompletion c n a).WritesUpTo n := by
  unfold mrwitCompletion
  split
  · exact ⟨_, _, rfl, rfl, Nat.zero_le _⟩
  · exact ⟨_, _, rfl, rfl, Nat.zero_le _⟩
  · split
    · exact ⟨_, _, rfl, rfl, Nat.zero_le _⟩
    · exact ⟨_, _, rfl, rfl, by omega⟩

/-- No completion of a computing command writes more than N to R, and none keeps R or MR_ROUNDS. -/
theorem completionOf_writes {s : State} {op : Op} {c : Completion} (h : completionOf s op = some c) :
    c.WritesUpTo (s.val .n) := by
  cases op with
  | modexp => cases h; exact modexpCompletion_writes s
  | modinv => cases h; exact modinvCompletion_writes _ _
  | mrtest => exact mrtestCompletion_writes h
  | mrwit => cases h; exact mrwitCompletion_writes _ _ _

/-- A value of OPW bits is written to R whole (R13). -/
theorem complete_valR {c : Completion} {s : State} {v : Nat} (hr : c.r = some v)
    (hv : v < 2 ^ s.cfg.opw) : (s.complete c).valR = v := by
  simp [State.valR, State.complete, hr, Nat.mod_eq_of_lt hv]

theorem complete_mrRounds {c : Completion} {k : Nat} (s : State) (h : c.rounds = some k) :
    (s.complete c).mrRounds = BitVec.ofNat 16 k := by
  simp [State.complete, h]

/-! ## What a completion depends on (R92, R117) -/

/-- One round of MRTEST, by the witness that its answer stands for. -/
theorem mrLoop_succ (c : Config) (n m s : Nat) (draw : Nat → Option Nat) (left i last : Nat) :
    mrLoop c n m s draw (left + 1) i last =
      ((draw i).map (drawWitness 2 (n - 2))).bind fun a =>
        if mrRound c n m s a then mrLoop c n m s draw left (i + 1) a
        else some ⟨.ok, some a, false, some (i + 1)⟩ := by
  rw [mrLoop]
  cases draw i <;> rfl

section
variable {c d : Config} {n : Nat} (hc : n < 2 ^ c.opw) (hd : n < 2 ^ d.opw)
include hc hd

/-- The power is the same for two sets of parameters that both hold its operands. -/
theorem modExp_config (a : Nat) {e : Nat} (hec : e < 2 ^ c.opw) (hed : e < 2 ^ d.opw) :
    modExp c a e n = modExp d a e n :=
  (modExp_eq c a e n hc hec).trans (modExp_eq d a e n hd hed).symm

theorem mrRound_config {m : Nat} (hm : m < n) (s a : Nat) : mrRound c n m s a = mrRound d n m s a := by
  rw [mrRound, mrRound, modExp_config hc hd a (hm.trans hc) (hm.trans hd)]

/-- The rounds see the answers only through their witnesses. -/
theorem mrLoop_congr {m : Nat} (hm : m < n) (s : Nat) {draw draw' : Nat → Option Nat} {left i : Nat}
    (last : Nat) (hw : ∀ j, j < i + left →
      (draw j).map (drawWitness 2 (n - 2)) = (draw' j).map (drawWitness 2 (n - 2))) :
    mrLoop c n m s draw left i last = mrLoop d n m s draw' left i last := by
  induction left generalizing i last with
  | zero => rfl
  | succ left ih =>
    have hnext (a : Nat) : mrLoop c n m s draw left (i + 1) a = mrLoop d n m s draw' left (i + 1) a :=
      ih a fun j hj => hw j (by omega)
    simp only [mrLoop_succ, hw i (by omega), mrRound_config hc hd hm, hnext]

theorem mrtestCompletion_congr {k : Nat} {draw draw' : Nat → Option Nat} (hw : ∀ i, i < k →
      (draw i).map (drawWitness 2 (n - 2)) = (draw' i).map (drawWitness 2 (n - 2))) :
    mrtestCompletion c n k draw = mrtestCompletion d n k draw' := by
  unfold mrtestCompletion
  cases h : mrPre n with
  | rounds m s =>
    have hloop := mrLoop_congr hc hd (mrPre_rounds_lt h) s (left := k) (i := 0) 0 fun j hj =>
      hw j (by omega)
    simp only [hloop]
  | _ => rfl

theorem mrwitCompletion_config (a : Nat) : mrwitCompletion c n a = mrwitCompletion d n a := by
  unfold mrwitCompletion
  cases h : mrPre n with
  | rounds m s => simp only [mrRound_config hc hd (mrPre_rounds_lt h)]
  | _ => rfl

end

/-- Two engines make the same completion of a command when they agree on what R92 lists for it. -/
theorem completionOf_congr {op : Op} {s t : State} (ha : op ≠ .mrtest → s.val .a = t.val .a)
    (he : op = .modexp → s.val .e = t.val .e) (hn : s.val .n = t.val .n)
    (hdraw : op = .mrtest → s.iter = t.iter ∧ ∀ i, i < s.iter.toNat →
      (s.draw i).map (drawWitness 2 (s.val .n - 2)) = (t.draw i).map (drawWitness 2 (s.val .n - 2))) :
    completionOf s op = completionOf t op := by
  have hns := val_lt s .n
  have hnt : s.val .n < 2 ^ t.cfg.opw := hn ▸ val_lt t .n
  cases op with
  | modexp =>
    have het : s.val .e < 2 ^ t.cfg.opw := he rfl ▸ val_lt t .e
    simp only [completionOf, modexpCompletion, ← ha nofun, ← he rfl, ← hn,
      modExp_config hns hnt _ (val_lt s .e) het]
  | modinv => simp only [completionOf, ← ha nofun, ← hn]
  | mrtest =>
    obtain ⟨hiter, hw⟩ := hdraw rfl
    simp only [completionOf, State.mrtestResult, ← hn, ← hiter]
    exact mrtestCompletion_congr hns hnt hw
  | mrwit => simp only [completionOf, ← ha nofun, ← hn, mrwitCompletion_config hns hnt]

/-- A command whose run ends in the phase IDLE made its completion. -/
theorem completionOf_of_exec_idle {op : Op} {s t : State} (hp : s.phase = .busy op)
    (h : exec op.instr s = .next t) (hidle : t.phase = .idle) : ∃ c, completionOf s op = some c := by
  cases hc : completionOf s op with
  | some c => exact ⟨c, rfl⟩
  | none =>
    rw [exec_wait hp hc] at h
    cases h
    cases hp.symm.trans hidle

/-! ## The obligations -/

/-- Settles O15: the completion's fields, and the window place by place. -/
theorem completionFrame : Obligations.CompletionFrame := by
  intro op s t hp hw h
  obtain ⟨c, hc⟩ := completionOf_isSome hp hw
  rw [exec_complete hp hc] at h
  cases h
  refine ⟨rfl, rfl, rfl, rfl, rfl, rfl, rfl, rfl, rfl, rfl, rfl, rfl, rfl, rfl, fun hop => ?_,
    fun l hstatus hintstat hrounds hresult => ?_⟩
  · rw [drawsOf_eq_zero c hop, consumeDraws_zero]
    exact ⟨rfl, rfl⟩
  · rw [complete_peek c _ hstatus hintstat hrounds hresult, consumeDraws_peek]

/-- Settles O31: both engines make one completion, and its value for R is at most N, so R holds it whole. -/
theorem resultsDependOnlyOnWhatIsRead : Obligations.ResultsDependOnlyOnWhatIsRead := by
  intro op s t s' t' hps hpt ha he hn hdraw hs ht hidle
  obtain ⟨c, hcs⟩ := completionOf_of_exec_idle hps hs hidle
  have hct : completionOf t op = some c := (completionOf_congr ha he hn hdraw).symm.trans hcs
  obtain ⟨v, k, hr, hrounds, hv⟩ := completionOf_writes hcs
  rw [exec_complete hps hcs] at hs
  rw [exec_complete hpt hct] at ht
  cases hs
  cases ht
  refine ⟨rfl, ?_, rfl, rfl, ?_, rfl, rfl⟩
  · rw [complete_valR (s := s.consumeDraws _) hr (hv.trans_lt (val_lt s .n)),
      complete_valR (s := t.consumeDraws _) hr (hv.trans_lt (hn ▸ val_lt t .n))]
  · rw [complete_mrRounds _ hrounds, complete_mrRounds _ hrounds]

/-- Settles O12: such a word does not decode, so its take completes at once. -/
theorem illegalWordCompletesAtOnce : Obligations.IllegalWordCompletesAtOnce := by
  intro s w hw
  obtain ⟨why, hd⟩ := (decode_eq_error_iff w).mpr hw
  refine ⟨fun hp => ?_, memWrite_cmd_busy w⟩
  have htake : ((s.respond .writeOkay).takeFirst w).phase = .idle := hp
  rw [memWrite_cmd_illegal hp hd, State.takeIllegal, illegalCompletion, complete_keep_idle htake]
  rfl

/-- Settles O13: NOP's completion keeps R and MR_ROUNDS and raises DONE_IRQ. -/
theorem nopCompletesWithinItsTake : Obligations.NopCompletesWithinItsTake := by
  refine fun s => ⟨fun hp => ?_, fun hp hen => ⟨_, exec_nop_idle hp, ?_⟩, memWrite_cmd_busy _⟩
  · have htake : (s.takeFirst (encode .nop)).phase = .idle := hp
    rw [exec_nop_idle hp, nopCompletion, complete_keep_idle htake]
    rfl
  · simp [State.irq, hen]

/-- Settles O14: the take's free R is cut to OPW bits. -/
theorem computingCommandIsTaken : Obligations.ComputingCommandIsTaken := fun _ op hp =>
  ⟨_, _, _, Nat.mod_lt _ (Nat.two_pow_pos _), exec_take op hp⟩

end Sys2Proof.Machine
end

section
/-! PROOFS. The statement on 41_modexp.md. First a completion that writes R and MR_ROUNDS, as a record
update; then MODEXP's completion by its modulus, which rests on the form independence of `modExp_eq`. -/

namespace Sys2Proof.Machine

/-! ## Completions with a result -/

/-- A completion that writes R and MR_ROUNDS, as a record update: R holds a value of OPW bits whole (R13). -/
theorem complete_eq_of_lt {s : State} {v : Nat} (e : ErrCode) (p : Bool) (k : Nat) (hv : v < 2 ^ s.cfg.opw) :
    s.complete { err := e, r := some v, prime := p, rounds := some k } = { s with
      phase := .idle, done := true, err := e, prime := p,
      r := v, mrRounds := BitVec.ofNat 16 k, doneIrq := true } := by
  simp [State.complete, Nat.mod_eq_of_lt hv]

/-- The completion of a running command that draws no witnesses (R152). -/
theorem exec_complete_of_ne_mrtest {s : State} {op : Op} {c : Completion} (hop : op ≠ .mrtest)
    (h : s.phase = .busy op) (hc : completionOf s op = some c) :
    exec op.instr s = .next (s.complete c) := by
  rw [exec_complete h hc, drawsOf_eq_zero c hop, consumeDraws_zero]

/-! ## MODEXP's completion by its modulus (R130) -/

theorem exec_modexp_busy {s : State} (h : s.phase = .busy .modexp) :
    exec .modexp s = .next (s.complete (modexpCompletion s.cfg (s.val .a) (s.val .e) (s.val .n))) :=
  exec_complete_of_ne_mrtest (op := .modexp) nofun h rfl

theorem modexpCompletion_zero (c : Config) (a e : Nat) :
    modexpCompletion c a e 0 = { err := .invalidArgument, r := some 0, prime := false, rounds := some 0 } :=
  if_pos rfl

/-- In both forms, R is the power (R131). -/
theorem modexpCompletion_of_ne_zero {c : Config} {e n : Nat} (a : Nat) (hn0 : n ≠ 0)
    (hn : n < 2 ^ c.opw) (he : e < 2 ^ c.opw) :
    modexpCompletion c a e n = { err := .ok, r := some (a ^ e % n), prime := false, rounds := some 0 } := by
  rw [modexpCompletion, if_neg hn0, modExp_eq c a e n hn he]

/-! ## The obligation -/

/-- Settles O16: the power is below N, so R holds it whole. -/
theorem modexpCompletesWithThePower : Obligations.ModexpCompletesWithThePower := by
  intro s hp
  rw [exec_modexp_busy hp]
  constructor
  · intro hn
    rw [hn, modexpCompletion_zero, complete_eq_of_lt _ _ _ (Nat.two_pow_pos _)]
    rfl
  · intro hn
    have hpow : s.val .a ^ s.val .e % s.val .n < 2 ^ s.cfg.opw :=
      (Nat.mod_lt _ (Nat.pos_of_ne_zero hn)).trans (val_lt s .n)
    rw [modexpCompletion_of_ne_zero _ hn (val_lt s .n) (val_lt s .e), complete_eq_of_lt _ _ _ hpow]
    rfl

end Sys2Proof.Machine
end

section
/-! PROOFS. The statements on 42_modinv.md. First the inverse that the block computes: no other residue is
one, and none is without coprimality; then MODINV's completion by its modulus and its operand. -/

namespace Sys2Proof.Machine

/-! ## The inverse modulo n (R143) -/

/-- What has an inverse modulo n is coprime to n. -/
theorem gcd_eq_one_of_mul_mod_eq_one {b x n : Nat} (hn : 2 ≤ n) (h : b * x % n = 1) : Nat.gcd b n = 1 :=
  Nat.coprime_of_mul_modEq_one x (h.trans (Nat.mod_eq_of_lt hn).symm)

section
variable {b n : Nat} (hn : 2 ≤ n) (hg : Nat.gcd b n = 1)
include hn hg

/-- The block's inverse is the only one below n: a coprime factor cancels. -/
theorem eq_inverseMod {y : Nat} (hy : y < n) (h : b * y % n = 1) : y = inverseMod b n := by
  have hmul : b * y ≡ b * inverseMod b n [MOD n] := h.trans (mul_inverseMod b n hn hg).symm
  have hmod : y ≡ inverseMod b n [MOD n] := hmul.cancel_left_of_coprime ((Nat.gcd_comm n b).trans hg)
  exact hmod.eq_of_lt_of_lt hy (inverseMod_lt b n (by omega))

theorem inverseMod_ne_zero : inverseMod b n ≠ 0 := by
  intro h0
  have hinv := mul_inverseMod b n hn hg
  rw [h0, Nat.mul_zero, Nat.zero_mod] at hinv
  exact Nat.zero_ne_one hinv

/-- What inverts b mod n inverts b. -/
theorem inverseMod_mod : inverseMod (b % n) n = inverseMod b n := by
  have hgmod : Nat.gcd (b % n) n = 1 := (Nat.mod_modEq b n).gcd_eq.trans hg
  have hinv := mul_inverseMod (b % n) n hn hgmod
  rw [Nat.mod_mul_mod] at hinv
  exact eq_inverseMod hn hg (inverseMod_lt _ n (by omega)) hinv

end

/-! ## MODINV's completion by its modulus and its operand (R140, R141) -/

theorem exec_modinv_busy {s : State} (h : s.phase = .busy .modinv) :
    exec .modinv s = .next (s.complete (modinvCompletion (s.val .a) (s.val .n))) :=
  exec_complete_of_ne_mrtest (op := .modinv) nofun h rfl

theorem modinvCompletion_of_lt_two {n : Nat} (b : Nat) (hn : n < 2) :
    modinvCompletion b n = { err := .invalidArgument, r := some 0, prime := false, rounds := some 0 } :=
  if_pos hn

theorem modinvCompletion_of_gcd_ne_one {b n : Nat} (hn : 2 ≤ n) (hg : Nat.gcd b n ≠ 1) :
    modinvCompletion b n = { err := .noInverse, r := some 0, prime := false, rounds := some 0 } := by
  rw [modinvCompletion, if_neg (by omega), extGcd_g, if_pos hg]

theorem modinvCompletion_of_gcd_eq_one {b n : Nat} (hn : 2 ≤ n) (hg : Nat.gcd b n = 1) :
    modinvCompletion b n =
      { err := .ok, r := some (inverseMod b n), prime := false, rounds := some 0 } := by
  rw [modinvCompletion, if_neg (by omega), extGcd_g, if_neg (not_not.mpr hg)]

/-! ## The obligations -/

/-- Settles O17: the inverse is below N, so R holds it whole. -/
theorem modinvCompletesWithTheInverse : Obligations.ModinvCompletesWithTheInverse := by
  intro s hp
  rw [exec_modinv_busy hp]
  refine ⟨fun hn => ?_, fun hn hg => ⟨?_, fun x hx => hg (gcd_eq_one_of_mul_mod_eq_one hn hx)⟩,
    fun hn hg => ?_⟩
  · rw [modinvCompletion_of_lt_two _ hn, complete_eq_of_lt _ _ _ (Nat.two_pow_pos _)]
    rfl
  · rw [modinvCompletion_of_gcd_ne_one hn hg, complete_eq_of_lt _ _ _ (Nat.two_pow_pos _)]
    rfl
  · have hlt : inverseMod (s.val .a) (s.val .n) < s.val .n := inverseMod_lt _ _ (by omega)
    refine ⟨_, Nat.one_le_iff_ne_zero.mpr (inverseMod_ne_zero hn hg), hlt, mul_inverseMod _ _ hn hg,
      fun y => eq_inverseMod hn hg, ?_⟩
    rw [modinvCompletion_of_gcd_eq_one hn hg, complete_eq_of_lt _ _ _ (hlt.trans (val_lt s .n))]
    rfl

/-- Settles O18: the step is the fuel-free equation, the contract is proved along the algorithm's calls. -/
theorem extendedGcdMeetsItsContract : Obligations.ExtendedGcdMeetsItsContract := by
  refine ⟨extGcd_zero, fun a b ha => ?_, fun a b => ⟨extGcd_g a b, ?_⟩⟩
  · rw [extGcd_step a b ha]
    exact ⟨rfl, rfl, rfl⟩
  · rw [extGcd_bezout, extGcd_g]

/-- Settles O19: the block's own value is the witness. -/
theorem inverseIsUnique : Obligations.InverseIsUnique := by
  intro b n hn hg
  have hlt : inverseMod b n < n := inverseMod_lt b n (by omega)
  have hmul : b * inverseMod b n % n = 1 := mul_inverseMod b n hn hg
  exact ⟨⟨_, ⟨hlt, hmul⟩, fun _ ⟨hy, h⟩ => eq_inverseMod hn hg hy h⟩, hlt, hmul,
    inverseMod_ne_zero hn hg, inverseMod_mod hn hg⟩

end Sys2Proof.Machine
end

section
/-! PROOFS. The statements on 43_miller_rabin.md. First the number theory of a round for a prime; then the
two completions by their candidate, and what a rejected candidate is; then the end of a running command. -/

namespace Sys2Proof.Machine

/-! ## A prime passes every witness (R155) -/

/-- Modulo a prime, 1 has no square roots but 1 and -1. -/
theorem mod_eq_of_sq_mod_eq_one {p x : Nat} (hp : p.Prime) (h : x ^ 2 % p = 1) :
    x % p = 1 ∨ x % p = p - 1 := by
  have : Fact p.Prime := ⟨hp⟩
  have hone : 1 % p = 1 := Nat.mod_eq_of_lt hp.one_lt
  have hneg : ((p - 1 : Nat) : ZMod p) = -1 := by simp [Nat.cast_pred hp.pos]
  have hsq : (x : ZMod p) ^ 2 = 1 := by
    exact_mod_cast (ZMod.natCast_eq_natCast_iff' (x ^ 2) 1 p).mpr (h.trans hone.symm)
  obtain hx | hx := sq_eq_one_iff.mp hsq
  · have hmod := (ZMod.natCast_eq_natCast_iff' x 1 p).mp (hx.trans Nat.cast_one.symm)
    exact .inl (hmod.trans hone)
  · have hmod := (ZMod.natCast_eq_natCast_iff' x (p - 1) p).mp (hx.trans hneg.symm)
    exact .inr (hmod.trans (Nat.mod_eq_of_lt (Nat.pred_lt hp.ne_zero)))

/-- On the way to 1 by squarings modulo a prime, the start is 1 or a step is -1. -/
theorem squarings_reach_neg_one {p y s : Nat} (hp : p.Prime) (h : y ^ 2 ^ s % p = 1) :
    y % p = 1 ∨ ∃ j, j < s ∧ y ^ 2 ^ j % p = p - 1 := by
  induction s with
  | zero => exact .inl (by simpa using h)
  | succ s ih =>
    rw [Nat.pow_succ, Nat.pow_mul] at h
    obtain hone | hneg := mod_eq_of_sq_mod_eq_one hp h
    · obtain hy | ⟨j, hj, hneg⟩ := ih hone
      · exact .inl hy
      · exact .inr ⟨j, by omega, hneg⟩
    · exact .inr ⟨s, by omega, hneg⟩

/-- Fermat's little theorem gives the end of the squarings. -/
theorem passesRound_of_prime {n a : Nat} (hp : n.Prime) (h1 : 1 ≤ a) (ha : a ≤ n - 1) : passesRound n a := by
  obtain ⟨hsplit, hodd⟩ := split_spec n hp.two_le
  have hcop : a.Coprime n := (Nat.coprime_of_lt_prime (by omega) (by omega) hp).symm
  have hfermat : (a ^ (split n).1) ^ 2 ^ (split n).2 % n = 1 := by
    rw [← Nat.pow_mul, ← hsplit, Nat.ModEq.pow_card_sub_one_eq_one hp hcop, Nat.mod_eq_of_lt hp.one_lt]
  refine ⟨_, _, hsplit, hodd, ?_⟩
  simpa only [Nat.pow_mul] using squarings_reach_neg_one hp hfermat

/-- The block's round answers PASS for a prime, in both forms. -/
theorem mrRound_of_prime {c : Config} {n a : Nat} (hn : n < 2 ^ c.opw) (hp : n.Prime) (h3 : 3 ≤ n)
    (h1 : 1 ≤ a) (ha : a ≤ n - 1) : mrRound c n (split n).1 (split n).2 a = true :=
  (mrRound_iff c n a h3 (hp.mod_two_eq_one_iff_ne_two.mpr (by omega)) hn).mpr (passesRound_of_prime hp h1 ha)

/-! ## The completions by their candidate (R150, R153, R154) -/

theorem mrPre_trivialPrime {n : Nat} (h : n = 1 ∨ n = 2) : mrPre n = .trivialPrime := if_pos h

theorem mrPre_even {n : Nat} (heven : n % 2 = 0) (h2 : n ≠ 2) : mrPre n = .trivialComposite := by
  rw [mrPre, if_neg (by omega), if_pos heven]

/-- Every candidate has one of the three kinds of R153. -/
theorem mrtest_candidate_cases (n : Nat) :
    (n = 1 ∨ n = 2 ∨ n = 3) ∨ (n % 2 = 0 ∧ n ≠ 2) ∨ (5 ≤ n ∧ n % 2 = 1) := by omega

section
variable {s : State}

theorem mrtestResult_small (h : s.val .n = 1 ∨ s.val .n = 2 ∨ s.val .n = 3) :
    s.mrtestResult = some ⟨.ok, some 0, true, some 0⟩ := by
  rw [State.mrtestResult, mrtestCompletion]
  obtain h12 | h3 : (s.val .n = 1 ∨ s.val .n = 2) ∨ s.val .n = 3 := by omega
  · rw [mrPre_trivialPrime h12]
  · rw [h3, mrPre_odd (by decide) (by decide)]
    exact if_pos rfl

theorem mrtestResult_even (heven : s.val .n % 2 = 0) (h2 : s.val .n ≠ 2) :
    s.mrtestResult = some ⟨.ok, some 0, false, some 0⟩ := by
  rw [State.mrtestResult, mrtestCompletion, mrPre_even heven h2]

/-- MRTEST's completion with its draws, as a record update. -/
theorem exec_mrtest_busy {v k : Nat} {p : Bool} (hp : s.phase = .busy .mrtest)
    (hr : s.mrtestResult = some ⟨.ok, some v, p, some k⟩) (hv : v < 2 ^ s.cfg.opw) :
    exec .mrtest s = .next { s.consumeDraws k with
      phase := .idle, done := true, err := .ok, prime := p,
      r := v, mrRounds := BitVec.ofNat 16 k, doneIrq := true } :=
  (exec_complete (op := .mrtest) hp hr).trans (congrArg _ (complete_eq_of_lt (s := s.consumeDraws k) _ _ _ hv))

/-- MRWIT's completion, as a record update. -/
theorem exec_mrwit_busy {e : ErrCode} {v k : Nat} {p : Bool} (hp : s.phase = .busy .mrwit)
    (hc : mrwitCompletion s.cfg (s.val .n) (s.val .a) = ⟨e, some v, p, some k⟩) (hv : v < 2 ^ s.cfg.opw) :
    exec .mrwit s = .next { s with
      phase := .idle, done := true, err := e, prime := p,
      r := v, mrRounds := BitVec.ofNat 16 k, doneIrq := true } := by
  rw [← complete_eq_of_lt e p k hv]
  exact exec_complete_of_ne_mrtest (op := .mrwit) nofun hp (congrArg some hc)

end

/-- A witness drawn for a candidate of 5 or more is one of R152's range. -/
theorem witness_mem {n a : Nat} {answer : Option Nat} (h5 : 5 ≤ n)
    (h : answer.map (drawWitness 2 (n - 2)) = some a) : 2 ≤ a ∧ a ≤ n - 2 := by
  obtain ⟨x, _, rfl⟩ := Option.map_eq_some_iff.mp h
  exact drawWitness_mem 2 (n - 2) x (by omega)

section
variable {c : Config} {n : Nat} (a : Nat)

theorem mrwitCompletion_trivialPrime (h : n = 1 ∨ n = 2) :
    mrwitCompletion c n a = ⟨.ok, some 0, true, some 0⟩ := by
  rw [mrwitCompletion, mrPre_trivialPrime h]

theorem mrwitCompletion_even (heven : n % 2 = 0) (h2 : n ≠ 2) :
    mrwitCompletion c n a = ⟨.ok, some 0, false, some 0⟩ := by
  rw [mrwitCompletion, mrPre_even heven h2]

variable {a} (h3 : 3 ≤ n) (hodd : n % 2 = 1)
include h3 hodd

theorem mrwitCompletion_outOfRange (ha : a < 2 ∨ n - 2 < a) :
    mrwitCompletion c n a = ⟨.invalidArgument, some 0, false, some 0⟩ := by
  rw [mrwitCompletion, mrPre_odd h3 hodd]
  exact if_pos ha

theorem mrwitCompletion_inRange (hlo : 2 ≤ a) (hhi : a ≤ n - 2) :
    mrwitCompletion c n a =
      ⟨.ok, some a, mrRound c n (split n).1 (split n).2 a, some 1⟩ := by
  rw [mrwitCompletion, mrPre_odd h3 hodd]
  exact if_neg (by omega)

end

/-! ## What a rejected candidate is (R155) -/

/-- Rounds that end with PRIME = 0 saw a witness that fails. -/
theorem mrLoop_rejects {c : Config} {n m s : Nat} {draw : Nat → Option Nat} {left i last : Nat}
    {r : Completion} (h : mrLoop c n m s draw left i last = some r) (hf : r.prime = false) :
    ∃ j x, draw j = some x ∧ mrRound c n m s (drawWitness 2 (n - 2) x) = false := by
  induction left generalizing i last with
  | zero => cases h; cases hf
  | succ left ih =>
    rw [mrLoop_succ, Option.bind_eq_some_iff] at h
    obtain ⟨a, ha, hnext⟩ := h
    split at hnext
    · exact ih hnext
    · next hfail =>
      obtain ⟨x, hx, rfl⟩ := Option.map_eq_some_iff.mp ha
      exact ⟨i, x, hx, Bool.eq_false_iff.mpr hfail⟩

theorem not_prime_of_even {n : Nat} (heven : n % 2 = 0) (h2 : n ≠ 2) : ¬ n.Prime := fun hp => by
  have := hp.eq_two_or_odd
  omega

/-- A candidate that MRTEST rejects is not a prime, and not 1. -/
theorem mrtestResult_rejects {s : State} {r : Completion} (h : s.mrtestResult = some r)
    (hf : r.prime = false) : s.val .n ≠ 1 ∧ ¬ (s.val .n).Prime := by
  obtain hsmall | ⟨heven, h2⟩ | ⟨h5, hodd⟩ := mrtest_candidate_cases (s.val .n)
  · rw [mrtestResult_small hsmall] at h
    cases h
    cases hf
  · exact ⟨by omega, not_prime_of_even heven h2⟩
  · rw [mrtestResult_odd h5 hodd] at h
    obtain ⟨_, x, _, hfail⟩ := mrLoop_rejects h hf
    obtain ⟨hlo, hhi⟩ := drawWitness_mem 2 (s.val .n - 2) x (by omega)
    refine ⟨by omega, fun hp => ?_⟩
    rw [mrRound_of_prime (val_lt s .n) hp (by omega) (by omega) (by omega)] at hfail
    cases hfail

/-- A candidate that MRWIT rejects without an error is not a prime, and not 1. -/
theorem mrwitCompletion_rejects {c : Config} {n a : Nat} (hn : n < 2 ^ c.opw)
    (hok : (mrwitCompletion c n a).err = .ok) (hf : (mrwitCompletion c n a).prime = false) :
    n ≠ 1 ∧ ¬ n.Prime := by
  obtain htrivial | ⟨heven, h2⟩ | ⟨h3, hodd⟩ :
      (n = 1 ∨ n = 2) ∨ (n % 2 = 0 ∧ n ≠ 2) ∨ (3 ≤ n ∧ n % 2 = 1) := by omega
  · rw [mrwitCompletion_trivialPrime a htrivial] at hf
    cases hf
  · exact ⟨by omega, not_prime_of_even heven h2⟩
  · obtain hout | ⟨hlo, hhi⟩ : (a < 2 ∨ n - 2 < a) ∨ (2 ≤ a ∧ a ≤ n - 2) := by omega
    · rw [mrwitCompletion_outOfRange h3 hodd hout] at hok
      cases hok
    · refine ⟨by omega, fun hp => ?_⟩
      rw [mrwitCompletion_inRange h3 hodd hlo hhi,
        mrRound_of_prime hn hp h3 (by omega) (by omega)] at hf
      cases hf

/-! ## A running command ends (R156, R204) -/

/-- Whether MRTEST waits is the same in two states that agree on what it rests on. -/
theorem not_waits_of_same {s t : State} (hw : s.waitsForEntropy = false) (hcfg : t.cfg = s.cfg)
    (hphase : t.phase = s.phase) (hn : t.n = s.n) (hiter : t.iter = s.iter) (hent : t.entropy = s.entropy) :
    t.waitsForEntropy = false := by
  rw [Bool.eq_false_iff] at hw ⊢
  exact fun ht => hw (waitsForEntropy_of_same ht hcfg.symm hphase.symm hn.symm hiter.symm hent.symm)

/-- A command that runs and lacks no answer, with rst_n high from here on. -/
structure State.Runs (s : State) (op : Op) : Prop where
  phase : s.phase = .busy op
  rstN : s.rstN = []
  answers : s.waitsForEntropy = false

/-- The next step of a running command ends it, or is a host move that leaves one move fewer. -/
theorem step_of_runs {s t : State} {op : Op} (hs : s.Runs op) (h : step s = .next t) :
    t.phase = .idle ∨ (t.Runs op ∧ t.wait + 1 = s.wait) := by
  obtain ⟨hp, hrst, hw⟩ := hs
  by_cases hdue : s.wait = 0 ∨ s.host.next = none
  · obtain ⟨c, hc⟩ := completionOf_isSome (s := s.tick) hp hw
    rw [step_engine_exec (by simp [hrst]) hp hw hdue, exec_complete (s := s.tick) hp hc] at h
    cases h
    exact .inl rfl
  · obtain ⟨hwait, hline⟩ := not_or.mp hdue
    obtain ⟨_, rfl⟩ | ⟨_, _, _, _, _, rfl⟩ | ⟨_, hnone, _⟩ | ⟨_, _, _, _, ho⟩ := step_cases h
    · exact .inl rfl
    · exact .inl rfl
    · exact absurd hnone hline
    · obtain ⟨_, _, _, _, _, _, rfl⟩ | ⟨_, rfl⟩ := hostOp_busy_cases (busy_busy (s := s.tick.advance) hp) ho
      · exact .inr ⟨⟨hp, congrArg List.tail hrst, not_waits_of_same hw rfl rfl rfl rfl rfl⟩,
          Nat.succ_pred_eq_of_ne_zero hwait⟩
      · exact .inl rfl

/-- A run of `k + 1` steps is a step and a run of `k`. -/
theorem run_succ_of_step {M : Host.Core} {s t : M.State} (k : Nat) (h : M.step s = .next t) :
    M.run (k + 1) s = M.run k t := by
  rw [Host.Core.run, h]

theorem run_of_runs {s : State} {op : Op} (hs : s.Runs op) :
    ∃ k t, k ≤ s.wait + 1 ∧ Sys2Proof.core.run k s = .next t ∧ State.phase t = .idle := by
  induction hwait : s.wait generalizing s with
  | zero =>
    obtain ⟨t, hstep⟩ := step_next s
    obtain hidle | ⟨_, hfewer⟩ := step_of_runs hs hstep
    · exact ⟨1, t, le_rfl, run_succ_of_step 0 hstep, hidle⟩
    · omega
  | succ m ih =>
    obtain ⟨t, hstep⟩ := step_next s
    obtain hidle | ⟨ht, hfewer⟩ := step_of_runs hs hstep
    · exact ⟨1, t, by omega, run_succ_of_step 0 hstep, hidle⟩
    · obtain ⟨k, u, hk, hrun, hidle⟩ := ih ht (by omega)
      exact ⟨k + 1, u, by omega, (run_succ_of_step k hstep).trans hrun, hidle⟩

/-! ## The obligations -/

/-- Settles O21: the loop's rounds all pass, and the last witness is below N, so R holds it whole. -/
theorem mrtestAllWitnessesPass : Obligations.MrtestAllWitnessesPass := by
  intro s w hp h5 hodd hw hpass
  have hr : s.mrtestResult = some ⟨.ok, some (if s.iter.toNat = 0 then 0 else w (s.iter.toNat - 1)),
      true, some s.iter.toNat⟩ := by
    rw [mrtestResult_odd h5 hodd]
    simpa using mrLoop_allPass s.cfg (s.val .n) _ _ s.draw w s.iter.toNat 0 0
      (fun i _ hi => hw i (by omega))
      fun i _ hi => (mrRound_iff s.cfg _ _ (by omega) hodd (val_lt s .n)).mpr (hpass i (by omega))
  have hlast : (if s.iter.toNat = 0 then 0 else w (s.iter.toNat - 1)) < 2 ^ s.cfg.opw := by
    have hn := val_lt s .n
    split
    · omega
    · obtain ⟨_, hhi⟩ := witness_mem h5 (hw (s.iter.toNat - 1) (by omega))
      omega
  rw [exec_mrtest_busy hp hr hlast, BitVec.ofNat_toNat, BitVec.setWidth_eq]
  rfl

/-- Settles O22: the loop stops at the failing witness, which is below N, so R holds it whole. -/
theorem mrtestStopsAtTheFirstFailure : Obligations.MrtestStopsAtTheFirstFailure := by
  intro s w k hp h5 hodd hk hw hpass hfail
  have hround (a : Nat) := mrRound_iff s.cfg (s.val .n) a (by omega) hodd (val_lt s .n)
  have hr : s.mrtestResult = some ⟨.ok, some (w k), false, some (k + 1)⟩ := by
    rw [mrtestResult_odd h5 hodd]
    simpa using mrLoop_firstFail s.cfg (s.val .n) _ _ s.draw w s.iter.toNat 0 0 k hk
      (fun i _ hi => hw i (by omega)) (fun i _ hi => (hround _).mpr (hpass i (by omega)))
      (Bool.eq_false_iff.mpr fun h => hfail (by simpa using (hround _).mp h))
  obtain ⟨_, hhi⟩ := witness_mem h5 (hw k le_rfl)
  have hn := val_lt s .n
  rw [exec_mrtest_busy hp hr (by omega)]
  rfl

/-- Settles O26: the completion by its candidate and its witness; the witness is below N. -/
theorem mrwitRunsOneRound : Obligations.MrwitRunsOneRound := by
  intro s hp
  have hwidth := Nat.two_pow_pos s.cfg.opw
  refine ⟨fun h => exec_mrwit_busy hp (mrwitCompletion_trivialPrime _ h) hwidth,
    fun heven h2 => exec_mrwit_busy hp (mrwitCompletion_even _ heven h2) hwidth,
    fun h3 hodd hout => exec_mrwit_busy hp (mrwitCompletion_outOfRange h3 hodd hout) hwidth,
    fun h3 hodd hlo hhi => ?_⟩
  have hround := mrRound_iff s.cfg (s.val .n) (s.val .a) h3 hodd (val_lt s .n)
  have hexec := exec_mrwit_busy hp (mrwitCompletion_inRange h3 hodd hlo hhi) (val_lt s .a)
  constructor
  · intro hpass
    rw [hexec, hround.mpr hpass]
    rfl
  · intro hfail
    rw [hexec, Bool.eq_false_iff.mpr fun h => hfail (hround.mp h)]
    rfl

/-- Settles O27: a prime of 5 or more is odd, and every witness passes it as number theory. -/
theorem primePassesEveryWitness : Obligations.PrimePassesEveryWitness := fun _ _ _ hn hp h5 h1 ha =>
  mrRound_of_prime hn hp (by omega) h1 ha

/-- Settles O28: only a candidate that is not prime is rejected, and without a rejection all rounds run. -/
theorem mrtestNeverRejectsAPrime : Obligations.MrtestNeverRejectsAPrime := by
  intro s t hp hprime h5 h hidle
  obtain ⟨c, hc⟩ := completionOf_of_exec_idle (op := .mrtest) hp h hidle
  cases (exec_complete (op := .mrtest) hp hc).symm.trans h
  have hpass : c.prime = true := by
    by_contra hf
    obtain ⟨_, hcomposite⟩ := mrtestResult_rejects hc (Bool.eq_false_iff.mpr hf)
    exact hcomposite hprime
  have hodd : s.val .n % 2 = 1 := hprime.mod_two_eq_one_iff_ne_two.mpr (by omega)
  have hloop := (mrtestResult_odd h5 hodd).symm.trans hc
  obtain ⟨herr, _, k, _, hrounds, _, _, hall, _⟩ := mrLoop_cases _ _ _ _ _ _ _ _ _ hloop
  refine ⟨hpass, ?_, herr⟩
  rw [complete_mrRounds _ hrounds, hall hpass, Nat.zero_add, BitVec.ofNat_toNat, BitVec.setWidth_eq]

/-- Settles O29: what either command rejects is 0, or is neither 1 nor a prime. -/
theorem compositeVerdictIsTrue : Obligations.CompositeVerdictIsTrue := by
  intro s t op hop hp h hidle herr hprime
  obtain ⟨c, hc⟩ := completionOf_of_exec_idle hp h hidle
  cases (exec_complete hp hc).symm.trans h
  have hrejected : s.val .n ≠ 1 ∧ ¬ (s.val .n).Prime := by
    obtain rfl | rfl := hop
    · exact mrtestResult_rejects hc hprime
    · cases hc
      exact mrwitCompletion_rejects (val_lt s .n) herr hprime
  obtain ⟨h1, hcomposite⟩ := hrejected
  obtain h0 | h2 : s.val .n = 0 ∨ 2 ≤ s.val .n := by omega
  · exact .inl h0
  · obtain ⟨d, hdvd, hlo, hhi⟩ := Nat.exists_dvd_of_not_prime2 h2 hcomposite
    exact .inr ⟨d, hlo, hhi, hdvd⟩

/-- Settles O48: every host move of the run leaves one fewer, and none takes an answer away. -/
theorem runningCommandEnds : Obligations.RunningCommandEnds := by
  intro s op hp hrst hanswers
  have hw : s.waitsForEntropy = false := by
    rw [Bool.eq_false_iff]
    intro hwaits
    obtain ⟨hmrtest, _⟩ := (waitsForEntropy_iff s).mp hwaits
    obtain hlive | hw := hanswers (Phase.busy.inj (hp.symm.trans hmrtest))
    · simp [silent_of_waits hwaits] at hlive
    · simp [hw] at hwaits
  exact run_of_runs ⟨hp, hrst, hw⟩

/-- Settles O20: the completion by its candidate, with no answer used. -/
theorem mrtestDecidesTrivialCandidates : Obligations.MrtestDecidesTrivialCandidates := by
  intro s hp
  have hwidth := Nat.two_pow_pos s.cfg.opw
  constructor
  · intro h
    rw [exec_mrtest_busy hp (mrtestResult_small h) hwidth, consumeDraws_zero]
    rfl
  · intro heven h2
    rw [exec_mrtest_busy hp (mrtestResult_even heven h2) hwidth, consumeDraws_zero]
    rfl

end Sys2Proof.Machine
end

section
/-! PROOFS. The statement on 60_exceptions.md: irq and DONE_IRQ over the effects of a step. -/

namespace Sys2Proof.Machine

/-- R174 from the layouts of CTRL and INTSTAT (R32, R33). -/
theorem irq_eq_enable_and_pending (s : State) :
    s.irq = (s.ctrlWord.getLsbD 0 && s.intstatWord.getLsbD 0) := by
  rw [State.ctrlWord, State.intstatWord, flagWord_getLsbD_zero, flagWord_getLsbD_zero, State.irq]

/-- Of the effects that lead from BUSY to IDLE, the reset clears DONE, so DONE = 1 leaves the completion (R175). -/
theorem doneIrq_of_step_completes {s t : State} {op : Op} (h : step s = .next t) (hp : s.phase = .busy op)
    (ht : t.phase = .idle) (hd : t.done = true) : t.doneIrq = true := by
  cases stepEffect_of_step h with
  | complete _ _ => rfl
  | reset _ _ _ => simp at hd
  | nop hidle _ => simp [hidle] at hp
  | illegal hidle _ _ => simp [hidle] at hp
  | _ => simp [hp] at ht

/-- The take is the only effect that leads from IDLE to BUSY, and it keeps DONE_IRQ (R112, R202). -/
theorem doneIrq_of_step_takes {s t : State} {op : Op} (h : step s = .next t) (hp : s.phase = .idle)
    (ht : t.phase = .busy op) : t.doneIrq = s.doneIrq := by
  cases stepEffect_of_step h with
  | take _ _ => rfl
  | reset _ _ _ => simp at ht
  | illegal _ _ _ => simp [State.takeIllegal] at ht
  | _ => simp [hp] at ht

/-- Settles O44, by the effect of the step; where DONE_IRQ is 1, irq is IRQ_EN. -/
theorem interruptLineFollowsCompletion : Obligations.InterruptLineFollowsCompletion := by
  refine ⟨irq_eq_enable_and_pending, fun s t h hs ht hd => ?_, fun s t h hs ht => ?_⟩
  · obtain ⟨op, hp⟩ := (busy_eq_true_iff s).mp hs
    have hirq : t.doneIrq = true := doneIrq_of_step_completes h hp ((busy_eq_false_iff t).mp ht) hd
    exact ⟨hirq, by simp [State.irq, hirq]⟩
  · obtain ⟨op, hp⟩ := (busy_eq_true_iff t).mp ht
    exact doneIrq_of_step_takes h ((busy_eq_false_iff s).mp hs) hp

end Sys2Proof.Machine
end

section
/-! PROOFS. The statements on 70_reset_and_hazards.md. First the step with rst_n low and the output ent_req
of an idle engine; then the step from a final state. -/

namespace Sys2Proof.Machine

/-! ## Reset (R190, R191) -/

theorem rstAsserted_iff (s : State) : s.rstAsserted = true ↔ s.rstN.head? = some false := by
  simp [State.rstAsserted]

/-- With rst_n low the step is the block reset, whoever's turn it is. -/
theorem step_rstAsserted {s : State} (hr : s.rstAsserted = true) : step s = .next s.tick.blockReset := by
  rw [step, stepMove, if_pos hr]

/-- Only a running MRTEST draws witnesses, so an idle engine asks for no answer (R78, R79). -/
theorem entReq_idle {s : State} (hp : s.phase = .idle) : s.entReq = false := by
  have hdraws : s.drawsWitnesses = false := by rw [State.drawsWitnesses, hp]
  rw [State.entReq, hdraws, Bool.false_and]

/-- The reset clears IRQ_EN and DONE_IRQ, so irq is low (R174, R191). -/
theorem blockReset_irq (s : State) : s.blockReset.irq = false := by
  simp [State.irq]

/-! ## The end of a run (R206) -/

/-- In a final state neither agent has a move: with rst_n high, only its sample is used. -/
theorem step_final {s : State} (hf : s.final) (hr : s.rstAsserted = false) : step s = .next s.tick := by
  obtain ⟨hp, hn⟩ := hf
  have hturn : s.tick.engineTurn = false := engineTurn_idle hp
  rw [step, stepMove, if_neg (by simp [hr]), if_neg (by simp [hturn]), hostMove, tick_host, hn]

/-! ## The obligations -/

/-- Settles O2: the CTRL write with SRST and the step with rst_n low are each the block reset, after which
the engine is IDLE. -/
theorem bothResetSourcesReset : Obligations.BothResetSourcesReset := by
  refine ⟨fun s w hsrst => memWrite_ctrl_srst hsrst,
    fun s hlow => step_rstAsserted ((rstAsserted_iff s).mpr hlow), fun s => ?_⟩
  have hidle : s.blockReset.phase = .idle := blockReset_phase s
  exact ⟨hidle, blockReset_done s, blockReset_doneIrq s, blockReset_irq s, entReq_idle hidle⟩

/-- Settles O49, by the step from a final state; the sample of rst_n is no part of being final. -/
theorem finalStateIsKept : Obligations.FinalStateIsKept := by
  intro s t hfinal hhigh hstep
  rw [step_final hfinal ((rstAsserted_eq_false_iff s).mpr hhigh)] at hstep
  cases hstep
  exact ⟨rfl, hfinal⟩

end Sys2Proof.Machine
end
